-- ==== Sys2Proof/Word.lean ====
section
/-! DEFINITION. The word types of the block (00_scope.md R7: bit 0 is the least significant bit, every value is
unsigned, a byte has 8 bits). -/

namespace Sys2Proof

/-- A byte: 8 bits (R7). -/
abbrev Byte := BitVec 8

/-- A 6-bit value, what one symbol of the alphabet stands for (R7, R120). -/
abbrev Six := BitVec 6

/-- A 32-bit value (R21, R28, R38). -/
abbrev Word := BitVec 32

/-- A command word: 64 bits, bit 63 most significant (30_encoding.md R90). -/
abbrev CmdWord := BitVec 64

end Sys2Proof
end

