-- ==== Sys2Proof/Syntax.lean ====
section
/-! DEFINITION. The commands of R64-CMD version 1: one constructor per row of spec/opcode_table.json (30_encoding.md
R97), its operands the fields of the row's format (R91 to R95) in the order of their bits, the highest first. -/

namespace Sys2Proof

/-- The 31 commands. An operand has the width of its field, so every term has exactly one word (R101); operand values
that a command does not allow (R96) are terms too, because the command itself checks them. -/
inductive Instr where
  /-- `NOP`, format N (R220) -/
  | nop
  /-- `RESET`, format N (R221) -/
  | reset
  /-- `TOUCH`, format N (R222) -/
  | touch
  /-- `CLRB`, format N (R210) -/
  | clrb
  /-- `SETPOS`, format V (R211) -/
  | setpos (x4 : BitVec 4) (imm : BitVec 32)
  /-- `PUTB`, format V (R212) -/
  | putb (x4 : BitVec 4) (imm : BitVec 32)
  /-- `GETB`, format N (R213) -/
  | getb
  /-- `TABW`, format T (R214) -/
  | tabw (rc : BitVec 4) (idx : BitVec 6) (addr : BitVec 12) (val : BitVec 32)
  /-- `ENC6`, format V (R126) -/
  | enc6 (x4 : BitVec 4) (imm : BitVec 32)
  /-- `ENC8`, format V (R127) -/
  | enc8 (x4 : BitVec 4) (imm : BitVec 32)
  /-- `ENC12`, format V (R128) -/
  | enc12 (x4 : BitVec 4) (imm : BitVec 32)
  /-- `ENC16`, format V (R129) -/
  | enc16 (x4 : BitVec 4) (imm : BitVec 32)
  /-- `ENC32`, format V (R130) -/
  | enc32 (x4 : BitVec 4) (imm : BitVec 32)
  /-- `DEC6`, format N (R132) -/
  | dec6
  /-- `DEC8`, format N (R133) -/
  | dec8
  /-- `DEC12`, format N (R134) -/
  | dec12
  /-- `DEC16`, format N (R135) -/
  | dec16
  /-- `DEC32`, format N (R136) -/
  | dec32
  /-- `CKSUM`, format G (R141) -/
  | cksum (s : BitVec 16) (e : BitVec 16)
  /-- `CKAPP`, format G (R142) -/
  | ckapp (s : BitVec 16) (e : BitVec 16)
  /-- `CKVFY`, format G (R143) -/
  | ckvfy (s : BitVec 16) (e : BitVec 16)
  /-- `CRCINIT`, format N (R183) -/
  | crcinit
  /-- `CRCUPDB`, format V (R184) -/
  | crcupdb (x4 : BitVec 4) (imm : BitVec 32)
  /-- `CRCUPDW`, format V (R185) -/
  | crcupdw (x4 : BitVec 4) (imm : BitVec 32)
  /-- `CRCUPDR`, format G (R186) -/
  | crcupdr (s : BitVec 16) (e : BitVec 16)
  /-- `CRCFIN`, format N (R187) -/
  | crcfin
  /-- `CRCVFY`, format V (R188) -/
  | crcvfy (x4 : BitVec 4) (imm : BitVec 32)
  /-- `ASMRD`, format F (R155) -/
  | asmrd (w : BitVec 2) (seq : BitVec 6) (count : BitVec 6)
  /-- `ASMWR`, format F (R156) -/
  | asmwr (w : BitVec 2) (seq : BitVec 6) (count : BitVec 6)
  /-- `PARSERD`, format N (R161) -/
  | parserd
  /-- `PARSEWR`, format N (R162) -/
  | parsewr
deriving DecidableEq, Repr

/-- The mnemonic of R97. -/
def Instr.mnemonic : Instr → String
  | .nop => "NOP"
  | .reset => "RESET"
  | .touch => "TOUCH"
  | .clrb => "CLRB"
  | .setpos _ _ => "SETPOS"
  | .putb _ _ => "PUTB"
  | .getb => "GETB"
  | .tabw _ _ _ _ => "TABW"
  | .enc6 _ _ => "ENC6"
  | .enc8 _ _ => "ENC8"
  | .enc12 _ _ => "ENC12"
  | .enc16 _ _ => "ENC16"
  | .enc32 _ _ => "ENC32"
  | .dec6 => "DEC6"
  | .dec8 => "DEC8"
  | .dec12 => "DEC12"
  | .dec16 => "DEC16"
  | .dec32 => "DEC32"
  | .cksum _ _ => "CKSUM"
  | .ckapp _ _ => "CKAPP"
  | .ckvfy _ _ => "CKVFY"
  | .crcinit => "CRCINIT"
  | .crcupdb _ _ => "CRCUPDB"
  | .crcupdw _ _ => "CRCUPDW"
  | .crcupdr _ _ => "CRCUPDR"
  | .crcfin => "CRCFIN"
  | .crcvfy _ _ => "CRCVFY"
  | .asmrd _ _ _ => "ASMRD"
  | .asmwr _ _ _ => "ASMWR"
  | .parserd => "PARSERD"
  | .parsewr => "PARSEWR"

end Sys2Proof
end

