-- ==== Sys2Proof/WellFormed.lean ====
section
/-! DEFINITION. Which commands have operand fields that the command allows, as far as the word alone decides it
(30_encoding.md R96). Every term of `Instr` has a word and is executed; one that is not well formed is a legal command
word whose command raises `Fault(E_OPERAND)`. -/

namespace Sys2Proof

/-- The checks of R96 that look at the word only: unused extra bits are 0, a value fits its width, `CKAPP`'s `E` is 0, and
the frame width code is not 3. -/
def Instr.wf : Instr → Bool
  | .setpos x4 imm => decide (x4 = 0#4 ∧ imm.toNat < 2 ^ 16)
  | .putb x4 imm => decide (x4 = 0#4 ∧ imm.toNat < 2 ^ 8)
  | .enc6 x4 imm => decide (x4 = 0#4 ∧ imm.toNat < 2 ^ 6)
  | .enc8 _ imm => decide (imm.toNat < 2 ^ 8)
  | .enc12 x4 imm => decide (x4 = 0#4 ∧ imm.toNat < 2 ^ 12)
  | .enc16 x4 imm => decide (x4.toNat < 4 ∧ imm.toNat < 2 ^ 16)
  | .ckapp _ e => decide (e = 0#16)
  | .crcupdb x4 imm => decide (x4 = 0#4 ∧ imm.toNat < 2 ^ 8)
  | .crcupdw x4 _ => decide (x4 = 0#4)
  | .crcvfy x4 _ => decide (x4 = 0#4)
  | .asmrd w _ _ => decide (w ≠ 3#2)
  | .asmwr w _ _ => decide (w ≠ 3#2)
  | .nop => true
  | .reset => true
  | .touch => true
  | .clrb => true
  | .getb => true
  | .tabw _ _ _ _ => true
  | .enc32 _ _ => true
  | .dec6 => true
  | .dec8 => true
  | .dec12 => true
  | .dec16 => true
  | .dec32 => true
  | .cksum _ _ => true
  | .ckvfy _ _ => true
  | .crcinit => true
  | .crcupdr _ _ => true
  | .crcfin => true
  | .parserd => true
  | .parsewr => true

end Sys2Proof
end

