-- ==== Sys2Proof/Decode.lean ====
section
/-! DEFINITION. Decoding a command word and encoding a command (30_encoding.md R90 to R101). -/

namespace Sys2Proof

/-- Why a word is no command. -/
inductive DecodeError where
  /-- the opcode is not in the map of R97 (R98) -/
  | reservedOpcode
  /-- a bit that the opcode's format marks reserved is 1 (R99) -/
  | reservedBits
deriving DecidableEq, Repr

/-- One of the five formats, with the command it makes from the operand fields. -/
inductive Shape where
  /-- format N (R91) -/
  | n (mk : Instr)
  /-- format V (R92): `X4`, `IMM` -/
  | v (mk : BitVec 4 → BitVec 32 → Instr)
  /-- format G (R93): `S`, `E` -/
  | g (mk : BitVec 16 → BitVec 16 → Instr)
  /-- format F (R94): `W`, `SEQ6`, `COUNT` -/
  | f (mk : BitVec 2 → BitVec 6 → BitVec 6 → Instr)
  /-- format T (R95): `RC`, `IDX`, `ADDR`, `VAL` -/
  | t (mk : BitVec 4 → BitVec 6 → BitVec 12 → BitVec 32 → Instr)

/-- The opcode map of R97. Every opcode it does not list is reserved (R98). -/
def opcodeMap : List (BitVec 8 × Shape) :=
  [ (0x00#8, .n .nop), (0x01#8, .n .reset), (0x02#8, .n .touch),
    (0x08#8, .n .clrb), (0x09#8, .v .setpos), (0x0A#8, .v .putb), (0x0B#8, .n .getb), (0x0C#8, .t .tabw),
    (0x10#8, .v .enc6), (0x11#8, .v .enc8), (0x12#8, .v .enc12), (0x13#8, .v .enc16), (0x14#8, .v .enc32),
    (0x18#8, .n .dec6), (0x19#8, .n .dec8), (0x1A#8, .n .dec12), (0x1B#8, .n .dec16), (0x1C#8, .n .dec32),
    (0x20#8, .g .cksum), (0x21#8, .g .ckapp), (0x22#8, .g .ckvfy),
    (0x30#8, .n .crcinit), (0x31#8, .v .crcupdb), (0x32#8, .v .crcupdw), (0x33#8, .g .crcupdr),
    (0x34#8, .n .crcfin), (0x35#8, .v .crcvfy),
    (0x40#8, .f .asmrd), (0x41#8, .f .asmwr), (0x48#8, .n .parserd), (0x49#8, .n .parsewr) ]

/-- Bits 63:56, the opcode in every format (R90). -/
def opcodeField (c : CmdWord) : BitVec 8 := c.extractLsb' 56 8

/-- The reserved bits of the format are all 0 (R91 to R95). -/
def Shape.reservedClear (sh : Shape) (c : CmdWord) : Bool :=
  match sh with
  | .n _ => c.extractLsb' 0 56 == 0#56
  | .v _ => c.extractLsb' 32 20 == 0#20
  | .g _ => c.extractLsb' 48 8 == 0#8 && c.extractLsb' 0 16 == 0#16
  | .f _ => c.extractLsb' 50 6 == 0#6 && c.extractLsb' 46 2 == 0#2 && c.extractLsb' 38 2 == 0#2 &&
      c.extractLsb' 0 32 == 0#32
  | .t _ => c.extractLsb' 50 2 == 0#2

/-- The operand fields of the format, cut from the word (R91 to R95; R101 step 3). -/
def Shape.cut (sh : Shape) (c : CmdWord) : Instr :=
  match sh with
  | .n mk => mk
  | .v mk => mk (c.extractLsb' 52 4) (c.extractLsb' 0 32)
  | .g mk => mk (c.extractLsb' 32 16) (c.extractLsb' 16 16)
  | .f mk => mk (c.extractLsb' 48 2) (c.extractLsb' 40 6) (c.extractLsb' 32 6)
  | .t mk => mk (c.extractLsb' 52 4) (c.extractLsb' 44 6) (c.extractLsb' 32 12) (c.extractLsb' 0 32)

/-- The decoder of R101: look the opcode up, then the reserved bits, then the operand fields. -/
def decode (c : CmdWord) : Except DecodeError Instr :=
  match opcodeMap.lookup (opcodeField c) with
  | none => .error .reservedOpcode
  | some sh => if sh.reservedClear c then .ok (sh.cut c) else .error .reservedBits

/-- A field with its lowest bit at bit `lo` of the word. -/
def place (field : BitVec n) (lo : Nat) : CmdWord := field.setWidth 64 <<< lo

/-- A word of format N (R91): every bit below the opcode is 0. -/
def wordN (opc : BitVec 8) : CmdWord := place opc 56

/-- A word of format V (R92). -/
def wordV (opc : BitVec 8) (x4 : BitVec 4) (imm : BitVec 32) : CmdWord := place opc 56 ||| place x4 52 ||| place imm 0

/-- A word of format G (R93). -/
def wordG (opc : BitVec 8) (s e : BitVec 16) : CmdWord := place opc 56 ||| place s 32 ||| place e 16

/-- A word of format F (R94). -/
def wordF (opc : BitVec 8) (w : BitVec 2) (seq count : BitVec 6) : CmdWord :=
  place opc 56 ||| place w 48 ||| place seq 40 ||| place count 32

/-- A word of format T (R95). -/
def wordT (opc : BitVec 8) (rc : BitVec 4) (idx : BitVec 6) (addr : BitVec 12) (val : BitVec 32) : CmdWord :=
  place opc 56 ||| place rc 52 ||| place idx 44 ||| place addr 32 ||| place val 0

/-- The one word of a command (R91 to R95, R97). -/
def encode : Instr → CmdWord
  | .nop => wordN 0x00#8
  | .reset => wordN 0x01#8
  | .touch => wordN 0x02#8
  | .clrb => wordN 0x08#8
  | .setpos x4 imm => wordV 0x09#8 x4 imm
  | .putb x4 imm => wordV 0x0A#8 x4 imm
  | .getb => wordN 0x0B#8
  | .tabw rc idx addr val => wordT 0x0C#8 rc idx addr val
  | .enc6 x4 imm => wordV 0x10#8 x4 imm
  | .enc8 x4 imm => wordV 0x11#8 x4 imm
  | .enc12 x4 imm => wordV 0x12#8 x4 imm
  | .enc16 x4 imm => wordV 0x13#8 x4 imm
  | .enc32 x4 imm => wordV 0x14#8 x4 imm
  | .dec6 => wordN 0x18#8
  | .dec8 => wordN 0x19#8
  | .dec12 => wordN 0x1A#8
  | .dec16 => wordN 0x1B#8
  | .dec32 => wordN 0x1C#8
  | .cksum s e => wordG 0x20#8 s e
  | .ckapp s e => wordG 0x21#8 s e
  | .ckvfy s e => wordG 0x22#8 s e
  | .crcinit => wordN 0x30#8
  | .crcupdb x4 imm => wordV 0x31#8 x4 imm
  | .crcupdw x4 imm => wordV 0x32#8 x4 imm
  | .crcupdr s e => wordG 0x33#8 s e
  | .crcfin => wordN 0x34#8
  | .crcvfy x4 imm => wordV 0x35#8 x4 imm
  | .asmrd w seq count => wordF 0x40#8 w seq count
  | .asmwr w seq count => wordF 0x41#8 w seq count
  | .parserd => wordN 0x48#8
  | .parsewr => wordN 0x49#8

/-- One row of spec/opcode_table.json: a word belongs to the row when its masked bits are the match. -/
structure TableRow where
  mnemonic : String
  matchBits : CmdWord
  maskBits : CmdWord
deriving DecidableEq, Repr

/-- spec/opcode_table.json, transcribed row by row. The decoder does not use it; statements compare the two. -/
def opcodeTable : List TableRow :=
  [ ⟨"NOP", 0x0000000000000000#64, 0xFFFFFFFFFFFFFFFF#64⟩,
    ⟨"RESET", 0x0100000000000000#64, 0xFFFFFFFFFFFFFFFF#64⟩,
    ⟨"TOUCH", 0x0200000000000000#64, 0xFFFFFFFFFFFFFFFF#64⟩,
    ⟨"CLRB", 0x0800000000000000#64, 0xFFFFFFFFFFFFFFFF#64⟩,
    ⟨"SETPOS", 0x0900000000000000#64, 0xFF0FFFFF00000000#64⟩,
    ⟨"PUTB", 0x0A00000000000000#64, 0xFF0FFFFF00000000#64⟩,
    ⟨"GETB", 0x0B00000000000000#64, 0xFFFFFFFFFFFFFFFF#64⟩,
    ⟨"TABW", 0x0C00000000000000#64, 0xFF0C000000000000#64⟩,
    ⟨"ENC6", 0x1000000000000000#64, 0xFF0FFFFF00000000#64⟩,
    ⟨"ENC8", 0x1100000000000000#64, 0xFF0FFFFF00000000#64⟩,
    ⟨"ENC12", 0x1200000000000000#64, 0xFF0FFFFF00000000#64⟩,
    ⟨"ENC16", 0x1300000000000000#64, 0xFF0FFFFF00000000#64⟩,
    ⟨"ENC32", 0x1400000000000000#64, 0xFF0FFFFF00000000#64⟩,
    ⟨"DEC6", 0x1800000000000000#64, 0xFFFFFFFFFFFFFFFF#64⟩,
    ⟨"DEC8", 0x1900000000000000#64, 0xFFFFFFFFFFFFFFFF#64⟩,
    ⟨"DEC12", 0x1A00000000000000#64, 0xFFFFFFFFFFFFFFFF#64⟩,
    ⟨"DEC16", 0x1B00000000000000#64, 0xFFFFFFFFFFFFFFFF#64⟩,
    ⟨"DEC32", 0x1C00000000000000#64, 0xFFFFFFFFFFFFFFFF#64⟩,
    ⟨"CKSUM", 0x2000000000000000#64, 0xFFFF00000000FFFF#64⟩,
    ⟨"CKAPP", 0x2100000000000000#64, 0xFFFF00000000FFFF#64⟩,
    ⟨"CKVFY", 0x2200000000000000#64, 0xFFFF00000000FFFF#64⟩,
    ⟨"CRCINIT", 0x3000000000000000#64, 0xFFFFFFFFFFFFFFFF#64⟩,
    ⟨"CRCUPDB", 0x3100000000000000#64, 0xFF0FFFFF00000000#64⟩,
    ⟨"CRCUPDW", 0x3200000000000000#64, 0xFF0FFFFF00000000#64⟩,
    ⟨"CRCUPDR", 0x3300000000000000#64, 0xFFFF00000000FFFF#64⟩,
    ⟨"CRCFIN", 0x3400000000000000#64, 0xFFFFFFFFFFFFFFFF#64⟩,
    ⟨"CRCVFY", 0x3500000000000000#64, 0xFF0FFFFF00000000#64⟩,
    ⟨"ASMRD", 0x4000000000000000#64, 0xFFFCC0C0FFFFFFFF#64⟩,
    ⟨"ASMWR", 0x4100000000000000#64, 0xFFFCC0C0FFFFFFFF#64⟩,
    ⟨"PARSERD", 0x4800000000000000#64, 0xFFFFFFFFFFFFFFFF#64⟩,
    ⟨"PARSEWR", 0x4900000000000000#64, 0xFFFFFFFFFFFFFFFF#64⟩ ]

/-- The command word whose low `nbits` bits are those of `w`. A command is one 64-bit word and every row of the table has
64 bits; bits above `nbits` are 0. -/
def tableWord (nbits w : Nat) : CmdWord := BitVec.ofNat 64 (w % 2 ^ nbits)

/-- What the decoder reads from a word numbered as spec/opcode_table.json numbers its bits. -/
def decodeTableWord (nbits w : Nat) : Option Instr :=
  match decode (tableWord nbits w) with
  | .ok i => some i
  | .error _ => none

end Sys2Proof
end

