-- ==== Sys2Proof/Config.lean ====
section
/-! DEFINITION. The parameters of the block (00_scope.md R6) and of the host sequences (45_handshake_sequences.md R197,
R199, R201). -/

namespace Sys2Proof

/-- The parameter record of R6 as far as it is a parameter: the buffer capacity `BUFCAP` and the three CRC-32 numbers
`CRC_POLY` (reflected form), `CRC_INIT`, `CRC_XOROUT`. `BUFCAP` is at most 65535, so 16 bits hold it. -/
structure Params where
  bufcap : BitVec 16
  crcPoly : Word
  crcInit : Word
  crcXorOut : Word
deriving DecidableEq, Repr

/-- The defaults of R6 and 44_crc32.md R180. A statement that rests on them names this record (D25). -/
def Params.default : Params where
  bufcap := 512#16
  crcPoly := 0xEDB88320#32
  crcInit := 0xFFFFFFFF#32
  crcXorOut := 0xFFFFFFFF#32

/-- The bound R6 sets: 511 ≤ `BUFCAP` ≤ 65535 (the upper one is the width of the field). -/
def Params.wf (p : Params) : Bool := decide (511 ≤ p.bufcap.toNat)

/-- The hardwired value of the register `ID` (10_state.md R34). -/
def idValue : Word := 0x52363401#32

/-- `NIB_ORDER` (R197): which nibble of the challenge is `r_0`. -/
inductive NibOrder where
  /-- `r_j = challenge[4j+3 : 4j]` -/
  | lsnFirst
  /-- `r_j = challenge[31−4j : 28−4j]` -/
  | msnFirst
deriving DecidableEq, Repr

/-- `ROT_DIR` (R197): what a rotation's starting offset does. -/
inductive RotDir where
  /-- block `j` byte `i` is `key[(i + r_j) mod 16]` -/
  | startAt
  /-- block `j` byte `(i + r_j) mod 16` is `key[i]` -/
  | placeAt
deriving DecidableEq, Repr

/-- `PW_INTERLEAVE` (R201): the order of the 7 bytes of a round. R201 names two readings and says that others are
possible; `other` takes the order as a list of places in `d0 d1 d2 s0 s1 s2 s3`. -/
inductive Interleave where
  /-- `d0 d1 d2 s0 s1 s2 s3` -/
  | block
  /-- `d0 s0 d1 s1 d2 s2 s3` -/
  | alternate
  /-- any other order -/
  | other (order : Vector (Fin 7) 7)
deriving DecidableEq, Repr

/-- `HASH_BYTE_ORDER` (R199). -/
inductive HashByteOrder where
  | le
  | be
deriving DecidableEq, Repr

end Sys2Proof
end

