-- ==== Sys2Proof/Machine/State.lean ====
section
/-! DEFINITION. The state of the block as plain data (10_state.md R20 to R45), the reasons a step can stop, and the state
after reset. -/

namespace Sys2Proof.Machine

/-- One entry of the register table `TAB` (R38). -/
structure TabEntry where
  /-- `ADDR`: device register address, 0 to 4095 -/
  addr : BitVec 12
  /-- `VAL`: device register value, zero-extended -/
  val : BitVec 32
  /-- `RC`: per-register return code -/
  rc : BitVec 4
deriving DecidableEq, Repr

/-- A buffer: (index, byte) cells, indices strictly rising, no cell equal to what an unlisted index reads as. -/
abbrev Memory := List Host.Cell

/-- What the host can do to the block between two steps (R20, R43, R44). -/
inductive Input where
  /-- one command word on the command port (R43) -/
  | command (w : BitVec 64)
  /-- the reset input is asserted (R44) -/
  | resetInput
  /-- two command words at once, which the spec gives no step (20_memory.md R73) -/
  | together (w₁ w₂ : BitVec 64)
deriving DecidableEq, Repr

/-- The state of the block. `params` and `inputs` are the model's own fields (log entries 1 and 2); every other field is
the register, buffer or table of the spec that it names. -/
structure State where
  /-- the parameters of 00_scope.md R6; no step changes them -/
  params : Params
  /-- `A`, the accumulator (R21) -/
  a : BitVec 32
  /-- `X`, the extra bits (R22) -/
  x : BitVec 4
  /-- `POS`, the buffer cursor (R25) -/
  pos : BitVec 16
  /-- `LEN`, the number of valid bytes (R26) -/
  len : BitVec 16
  /-- `CK`, the checksum (R27) -/
  ck : BitVec 6
  /-- `CRC`, the running CRC before the final XOR (R28) -/
  crc : BitVec 32
  /-- `SEQ`, the sequence counter (R29) -/
  seq : BitVec 6
  /-- `STATUS.ERR`, the outcome code of the most recent command (R33) -/
  err : BitVec 4
  /-- `STATUS.FAULT`, the sticky fault bit (R33) -/
  faultBit : Bool
  /-- `FOP`, the operation character of the last frame parsed with success (R30) -/
  fop : BitVec 8
  /-- `FWIDTH`, its width in bytes per value (R31) -/
  fwidth : BitVec 3
  /-- `FSEQ`, its sequence number (R32) -/
  fseq : BitVec 6
  /-- `FCOUNT`, its register count (R32) -/
  fcount : BitVec 6
  /-- `BUF`, the frame buffer (R37) -/
  buf : Memory
  /-- `TAB`, the register table (R38) -/
  tab : Vector TabEntry 64
  /-- what the host has presented and the block has not consumed, oldest first -/
  inputs : List Input
deriving DecidableEq, Repr

/-- Why the machine stops. The spec's faults are no stops: they are next states with `STATUS` written
(60_exceptions.md R236, R246). -/
inductive Fault where
  /-- Raised by the step when two command words are presented at once: the block takes one command stream and the spec
  gives two simultaneous commands no step (R73; 93_implementation_defined.md U10). Safe: the machine goes nowhere. -/
  | simultaneousCommands
deriving DecidableEq, Repr

/-- Why an instruction has no meaning. -/
inductive Refusal where
  /-- Raised by an arm of `exec` whose instruction has no meaning yet; no arm answers it. Safe: nothing runs. -/
  | notModelled (mnemonic : String)
deriving DecidableEq, Repr

/-- The state after reset of a block with parameters `p` (R45, R261): every register 0 but `CRC`, which is `CRC_INIT`;
the buffer empty; every table field 0; nothing presented. -/
def State.resetWith (p : Params) : State where
  params := p
  a := 0#32
  x := 0#4
  pos := 0#16
  len := 0#16
  ck := 0#6
  crc := p.crcInit
  seq := 0#6
  err := 0#4
  faultBit := false
  fop := 0#8
  fwidth := 0#3
  fseq := 0#6
  fcount := 0#6
  buf := []
  tab := Vector.replicate 64 ⟨0#12, 0#32, 0#4⟩
  inputs := []

/-- The state after reset of a block with the default parameters of 00_scope.md R6. -/
def State.reset : State := State.resetWith Params.default

end Sys2Proof.Machine
end

