-- ==== Sys2Proof/Machine/Operands.lean ====
section
/-! DEFINITION. Widths and operand forms: the codec widths (41_radix64_codec.md R122), the frame widths (30_encoding.md
R110), the operation characters, and the operand checks of R96. -/

namespace Sys2Proof.Machine

/-- The widths the codec packs (R122). -/
inductive CodecWidth where
  | w6
  | w8
  | w12
  | w16
  | w32
deriving DecidableEq, Repr

/-- The width in bits. -/
def CodecWidth.bits : CodecWidth → Nat
  | .w6 => 6
  | .w8 => 8
  | .w12 => 12
  | .w16 => 16
  | .w32 => 32

/-- `nsym(bits)`: the symbols of a group (R122). -/
def CodecWidth.nsym : CodecWidth → Nat
  | .w6 => 1
  | .w8 => 2
  | .w12 => 2
  | .w16 => 3
  | .w32 => 6

/-- `xbits(bits) = 6·nsym(bits) − bits`: the extra bits of a group (R122). -/
def CodecWidth.xbits (c : CodecWidth) : Nat := 6 * c.nsym - c.bits

/-- The frame widths (R110). -/
inductive FrameWidth where
  | one
  | two
  | four
deriving DecidableEq, Repr

/-- `wbytes(W)`: bytes per register value (R110). -/
def FrameWidth.bytes : FrameWidth → Nat
  | .one => 1
  | .two => 2
  | .four => 4

/-- `wchar(W)`: the character at offset 2 of a frame (R110). -/
def FrameWidth.char : FrameWidth → Byte
  | .one => 0x31#8
  | .two => 0x32#8
  | .four => 0x34#8

/-- The codec width of a value in a frame, `8·wbytes(W)` bits (R110). -/
def FrameWidth.codec : FrameWidth → CodecWidth
  | .one => .w8
  | .two => .w16
  | .four => .w32

/-- The command field `W` (R94, R110); 3 is illegal. -/
def FrameWidth.ofField (w : BitVec 2) : Option FrameWidth :=
  if w = 0#2 then some .one
  else if w = 1#2 then some .two
  else if w = 2#2 then some .four
  else none

/-- `wcode(b)`: the frame width a byte declares, undefined for every byte but three (R110). -/
def FrameWidth.ofChar (b : Byte) : Option FrameWidth :=
  if b = 0x31#8 then some .one
  else if b = 0x32#8 then some .two
  else if b = 0x34#8 then some .four
  else none

/-- The operation of a frame (20_memory.md R69, R70). -/
inductive FrameOp where
  | read
  | write
deriving DecidableEq, Repr

/-- The operation character: `'R'` or `'W'`. -/
def FrameOp.char : FrameOp → Byte
  | .read => 0x52#8
  | .write => 0x57#8

/-- The start marker `'$'` of every frame. -/
def startMarker : Byte := 0x24#8

/-- The response marker `'='`. -/
def responseMarker : Byte := 0x3D#8

/-- The terminator `'?'` of a request. -/
def requestTerminator : Byte := 0x3F#8

/-- A value that has no 1 above bit `bits − 1` (R96). -/
def fits (imm : BitVec 32) (bits : Nat) : Bool := decide (imm.toNat < 2 ^ bits)

/-- Extra bits that fit the width's extra bits; 0 where it has none (R96, R125). -/
def extraFits (x4 : BitVec 4) (c : CodecWidth) : Bool := decide (x4.toNat < 2 ^ c.xbits)

/-- The operand check of `PUTB` and `CRCUPDB`: `X4 = 0` and `IMM[31:8] = 0` (R96). -/
def byteOperand (x4 : BitVec 4) (imm : BitVec 32) : Bool := decide (x4 = 0#4) && fits imm 8

end Sys2Proof.Machine
end

