-- ==== Sys2Proof/Machine/Flags.lean ====
section
/-! DEFINITION. The outcome codes and the `STATUS` word (10_state.md R33; 60_exceptions.md R230, R231). The block has no
condition codes. -/

namespace Sys2Proof.Machine

/-- The failure class: results about the data (R231). -/
inductive Failure where
  /-- frame shorter than 7 bytes -/
  | short
  /-- checksum symbol differs -/
  | cksum
  /-- `$` or `=` missing -/
  | format
  /-- not the expected operation character -/
  | op
  /-- not a width character -/
  | width
  /-- frame shorter than its count and width need -/
  | trunc
  /-- frame longer than its count and width need -/
  | excess
  /-- finalised CRC differs -/
  | crc
deriving DecidableEq, Repr

/-- The fault class: results about the command (R231). -/
inductive Misuse where
  /-- reserved opcode or reserved bit -/
  | illegal
  /-- an operand field the command does not allow -/
  | operand
  /-- an index out of range -/
  | range
deriving DecidableEq, Repr

/-- The codes 1 to 8 of R230. -/
def Failure.code : Failure → BitVec 4
  | .short => 1#4
  | .cksum => 2#4
  | .format => 3#4
  | .op => 4#4
  | .width => 5#4
  | .trunc => 6#4
  | .excess => 7#4
  | .crc => 8#4

/-- The codes 12 to 14 of R230. -/
def Misuse.code : Misuse → BitVec 4
  | .illegal => 12#4
  | .operand => 13#4
  | .range => 14#4

/-- The code of normal completion, `E_NONE` (R230). -/
def normalCode : BitVec 4 := 0#4

/-- The register `STATUS`: `ERR` in bits 3:0, `FAULT` in bit 4, bits 7:5 read as 0 (R33). -/
def State.status (s : State) : BitVec 8 := (if s.faultBit then 0x10#8 else 0#8) ||| s.err.setWidth 8

end Sys2Proof.Machine
end

