-- ==== Sys2Proof/Machine/Ops.lean ====
section
/-! DEFINITION. The shared operations: buffer access, the three endings of a command, reset, and taking what the host
presents. -/

namespace Sys2Proof.Machine

/-- What an index of `BUF` that no cell lists reads as. The spec leaves the content of bytes nobody has written open and
unobservable (10_state.md R37; 93_implementation_defined.md U4). DESIGN CHOICE: 0 (log entry 3). -/
def unlistedByte : Byte := 0#8

/-- One byte of the buffer. -/
def Memory.read : Memory → Nat → Byte
  | [], _ => unlistedByte
  | (b, v) :: rest, i => if i = b then v else Memory.read rest i

/-- A cell in front of a buffer, left out when it says what an unlisted index says anyway. -/
def Memory.push (i : Nat) (v : Byte) (m : Memory) : Memory := if v = unlistedByte then m else (i, v) :: m

/-- The buffer after one byte is stored; the canonical form is kept. -/
def Memory.write : Memory → Nat → Byte → Memory
  | [], i, v => Memory.push i v []
  | (b, w) :: rest, i, v =>
    if i < b then Memory.push i v ((b, w) :: rest)
    else if i = b then Memory.push i v rest
    else (b, w) :: Memory.write rest i v

/-- `MemRead(i, n)`: the bytes at `i .. i+n−1`, lowest index first (00_scope.md R8). -/
def Memory.readBytes (m : Memory) : Nat → Nat → List Byte
  | _, 0 => []
  | i, n + 1 => m.read i :: Memory.readBytes m (i + 1) n

/-- `MemWrite(i, n, bs)`: the bytes of a list stored from index `i` up (00_scope.md R8). -/
def Memory.writeBytes : Memory → Nat → List Byte → Memory
  | m, _, [] => m
  | m, i, b :: bs => Memory.writeBytes (m.write i b) (i + 1) bs

/-- Indices strictly rise from above `lo`, and no cell says what an unlisted index says. -/
def Memory.wfFrom : Nat → Memory → Bool
  | _, [] => true
  | lo, (b, v) :: rest => decide (lo ≤ b) && decide (v ≠ unlistedByte) && Memory.wfFrom (b + 1) rest

/-- The canonical form of a buffer. -/
def Memory.wf (m : Memory) : Bool := Memory.wfFrom 0 m

/-- `done`: `STATUS.ERR <- 0`, `STATUS.FAULT` unchanged (60_exceptions.md R234). -/
def State.done (s : State) : State := { s with err := normalCode }

/-- `fail(E)`: `STATUS.ERR <- E`, nothing else (R235). -/
def State.fail (s : State) (e : Failure) : State := { s with err := e.code }

/-- `raise Fault(E)`, all there is of taking an exception in this block: `STATUS.ERR <- E`, `STATUS.FAULT <- 1`, nothing
else; no state is saved and control goes nowhere (R236, R244). There is no return from one (R245). -/
def State.raise (s : State) (e : Misuse) : State := { s with err := e.code, faultBit := true }

/-- Every piece of state at its reset value, by the reset input or `RESET` (10_state.md R44, R45; 47_system.md R221). The
buffer's bytes are not cleared, they become invalid because `LEN` is 0 (R37); the parameters and what the host has
presented are not the block's to reset (R39). -/
def State.resetBlock (s : State) : State :=
  { State.resetWith s.params with buf := s.buf, inputs := s.inputs }

/-- The bytes of a list stored at the cursor: `POS` advances by their number and `LEN <- max(LEN, POS)` for the new `POS`
(10_state.md R25, R26). -/
def State.putAtCursor (s : State) (bs : List Byte) : State :=
  let pos' := s.pos + BitVec.ofNat 16 bs.length
  { s with
    buf := s.buf.writeBytes s.pos.toNat bs
    pos := pos'
    len := if s.len < pos' then pos' else s.len }

/-- A write of `n` bytes at the cursor lies wholly below `BUFCAP`; the sum is on natural numbers (20_memory.md R64). -/
def State.roomFor (s : State) (n : Nat) : Bool := decide (s.pos.toNat + n ≤ s.params.bufcap.toNat)

/-- A read of `n` bytes at the cursor lies wholly below `LEN` (R64). -/
def State.holds (s : State) (n : Nat) : Bool := decide (s.pos.toNat + n ≤ s.len.toNat)

/-- `MemRead(S, E − S)` for operands of format G (00_scope.md R8). -/
def State.rangeBytes (s : State) (lo hi : BitVec 16) : List Byte := s.buf.readBytes lo.toNat (hi.toNat - lo.toNat)

/-- The range check of `CKSUM` and `CRCUPDR`: `S ≤ E ≤ LEN` (30_encoding.md R96). -/
def State.rangeValid (s : State) (lo hi : BitVec 16) : Bool :=
  decide (lo.toNat ≤ hi.toNat) && decide (hi.toNat ≤ s.len.toNat)

/-- What the next step works on. -/
inductive Next where
  /-- the host has presented nothing -/
  | idle
  /-- one command word, and the state with it consumed -/
  | command (w : BitVec 64) (s : State)
  /-- the reset input, and the state with the assertion consumed -/
  | resetInput (s : State)
  /-- two words at once -/
  | together
deriving DecidableEq, Repr

/-- Taking the oldest thing the host has presented (10_state.md R24, R43, R44; 20_memory.md R72). -/
def State.takeInput (s : State) : Next :=
  match s.inputs with
  | [] => .idle
  | .command w :: rest => .command w { s with inputs := rest }
  | .resetInput :: rest => .resetInput { s with inputs := rest }
  | .together _ _ :: _ => .together

/-- The host presents a command word ahead of everything it has presented before. -/
def State.presentFirst (s : State) (w : BitVec 64) : State := { s with inputs := .command w :: s.inputs }

end Sys2Proof.Machine
end

