-- ==== Sys2Proof/Machine/Buffer.lean ====
section
/-! DEFINITION. Buffer and table access (46_buffer_table.md). -/

namespace Sys2Proof.Machine

/-- `CLRB`: the bytes are not cleared, they become invalid (R210). -/
def execClrb (s : State) : Host.Outcome State Fault Refusal :=
  .next ({ s with len := 0#16, pos := 0#16 } : State).done

/-- `SETPOS imm` (R211). -/
def execSetpos (x4 : BitVec 4) (imm : BitVec 32) (s : State) : Host.Outcome State Fault Refusal :=
  if x4 ≠ 0#4 ∨ imm.extractLsb' 16 16 ≠ 0#16 then .next (s.raise .operand)
  else if s.len < imm.extractLsb' 0 16 then .next (s.raise .range)
  else .next ({ s with pos := imm.extractLsb' 0 16 } : State).done

/-- `PUTB imm` (R212). -/
def execPutb (x4 : BitVec 4) (imm : BitVec 32) (s : State) : Host.Outcome State Fault Refusal :=
  if !byteOperand x4 imm then .next (s.raise .operand)
  else if !s.roomFor 1 then .next (s.raise .range)
  else .next (s.putAtCursor [imm.extractLsb' 0 8]).done

/-- `GETB`: the byte as it stands, not through `val` (R213). -/
def execGetb (s : State) : Host.Outcome State Fault Refusal :=
  if !s.holds 1 then .next (s.raise .range)
  else .next ({ s with a := (s.buf.read s.pos.toNat).setWidth 32, pos := s.pos + 1#16 } : State).done

/-- `TABW idx, addr, val, rc=n`: one whole entry (R214). -/
def execTabw (rc : BitVec 4) (idx : BitVec 6) (addr : BitVec 12) (val : BitVec 32) (s : State) :
    Host.Outcome State Fault Refusal :=
  .next ({ s with tab := s.tab.set idx.toNat ⟨addr, val, rc⟩ idx.isLt } : State).done

end Sys2Proof.Machine
end

