-- ==== Sys2Proof/Machine/Crc.lean ====
section
/-! DEFINITION. The CRC-32 unit (44_crc32.md). The three numbers of R180 are the parameters of the state. -/

namespace Sys2Proof.Machine

/-- One of the eight shifts of `crc_step` (R181). -/
def crcShift (poly c : Word) : Word := if c.getLsbD 0 then (c >>> 1) ^^^ poly else c >>> 1

/-- `n` shifts. -/
def crcShifts (poly : Word) : Nat → Word → Word
  | 0, c => c
  | n + 1, c => crcShifts poly n (crcShift poly c)

/-- `crc_step(c, b)`: one byte through the register (R181). -/
def crcStep (poly c : Word) (b : Byte) : Word := crcShifts poly 8 (c ^^^ b.setWidth 32)

/-- The bytes of a list through the register, in list order (R182). -/
def crcFeed (poly c : Word) (bs : List Byte) : Word := bs.foldl (crcStep poly) c

/-- `crc32(bs)` under a parameter record (R182). -/
def crc32 (p : Params) (bs : List Byte) : Word := crcFeed p.crcPoly p.crcInit bs ^^^ p.crcXorOut

/-- The four bytes of a word, least significant first (R185; 20_memory.md R62). -/
def littleEndian (w : Word) : List Byte :=
  [w.extractLsb' 0 8, w.extractLsb' 8 8, w.extractLsb' 16 8, w.extractLsb' 24 8]

/-- The finalised CRC of the bytes fed so far (R187). -/
def State.crcFinal (s : State) : Word := s.crc ^^^ s.params.crcXorOut

/-- `CRCINIT` (R183). -/
def execCrcinit (s : State) : Host.Outcome State Fault Refusal :=
  .next ({ s with crc := s.params.crcInit } : State).done

/-- `CRCUPDB imm` (R184). -/
def execCrcupdb (x4 : BitVec 4) (imm : BitVec 32) (s : State) : Host.Outcome State Fault Refusal :=
  if !byteOperand x4 imm then .next (s.raise .operand)
  else .next ({ s with crc := crcStep s.params.crcPoly s.crc (imm.extractLsb' 0 8) } : State).done

/-- `CRCUPDW imm` (R185). -/
def execCrcupdw (x4 : BitVec 4) (imm : BitVec 32) (s : State) : Host.Outcome State Fault Refusal :=
  if x4 ≠ 0#4 then .next (s.raise .operand)
  else .next ({ s with crc := crcFeed s.params.crcPoly s.crc (littleEndian imm) } : State).done

/-- `CRCUPDR s, e` (R186). -/
def execCrcupdr (lo hi : BitVec 16) (s : State) : Host.Outcome State Fault Refusal :=
  if !s.rangeValid lo hi then .next (s.raise .range)
  else .next ({ s with crc := crcFeed s.params.crcPoly s.crc (s.rangeBytes lo hi) } : State).done

/-- `CRCFIN` (R187). -/
def execCrcfin (s : State) : Host.Outcome State Fault Refusal := .next ({ s with a := s.crcFinal } : State).done

/-- `CRCVFY imm` (R188). -/
def execCrcvfy (x4 : BitVec 4) (imm : BitVec 32) (s : State) : Host.Outcome State Fault Refusal :=
  if x4 ≠ 0#4 then .next (s.raise .operand)
  else if s.crcFinal ≠ imm then .next (s.fail .crc)
  else .next s.done

end Sys2Proof.Machine
end

