-- ==== Sys2Proof/Machine/Codec.lean ====
section
/-! DEFINITION. The Radix64 codec and its ten commands (41_radix64_codec.md). -/

namespace Sys2Proof.Machine

/-- `sym(v)`: the symbol of a 6-bit value (R120). -/
def sym (v : Six) : Byte :=
  if v.toNat < 10 then 0x30#8 + v.setWidth 8
  else if v.toNat < 36 then 0x61#8 + (v.setWidth 8 - 10#8)
  else if v.toNat < 62 then 0x41#8 + (v.setWidth 8 - 36#8)
  else if v.toNat = 62 then 0x2B#8
  else 0x2D#8

/-- `val(b)`: the value of a symbol, 0 for a byte outside the alphabet (R121). -/
def val (b : Byte) : Six :=
  if 0x30 ≤ b.toNat ∧ b.toNat ≤ 0x39 then (b - 0x30#8).setWidth 6
  else if 0x61 ≤ b.toNat ∧ b.toNat ≤ 0x7A then (b - 0x61#8 + 10#8).setWidth 6
  else if 0x41 ≤ b.toNat ∧ b.toNat ≤ 0x5A then (b - 0x41#8 + 36#8).setWidth 6
  else if b = 0x2B#8 then 62#6
  else if b = 0x2D#8 then 63#6
  else 0#6

/-- A byte of the alphabet (R120; 70_reset_and_hazards.md R266). -/
def isSymbol (b : Byte) : Bool :=
  decide (0x30 ≤ b.toNat ∧ b.toNat ≤ 0x39) || decide (0x61 ≤ b.toNat ∧ b.toNat ≤ 0x7A) ||
  decide (0x41 ≤ b.toNat ∧ b.toNat ≤ 0x5A) || decide (b = 0x2B#8) || decide (b = 0x2D#8)

/-- The `n` symbols of the `6n`-bit number `g`, most significant first: symbol `k` is `sym((g >> 6(n−1−k)) & 0x3F)`
(R123; 20_memory.md R60). -/
def symbols : Nat → Nat → List Byte
  | 0, _ => []
  | n + 1, g => sym (BitVec.ofNat 6 (g >>> (6 * n))) :: symbols n g

/-- The number that the values of a list of symbols make, the first in the most significant place (R124). -/
def symbolsValue (bs : List Byte) : Nat := bs.foldl (fun g b => g * 64 + (val b).toNat) 0

/-- `pack(bits, v, x)`: the group of the number `x · 2^bits + v` (R123). -/
def pack (c : CodecWidth) (v : BitVec 32) (x : BitVec 4) : List Byte :=
  symbols c.nsym (x.toNat * 2 ^ c.bits + v.toNat)

/-- `unpack(bits, bs)`: the value, zero-extended to 32 bits, and the extra bits, zero-extended to 4 (R124). -/
def unpack (c : CodecWidth) (bs : List Byte) : BitVec 32 × BitVec 4 :=
  let g := symbolsValue bs
  (BitVec.ofNat 32 (g % 2 ^ c.bits), BitVec.ofNat 4 (g / 2 ^ c.bits))

/-- The common encode step `ENC(bits)` (R125). -/
def encodeStep (c : CodecWidth) (x4 : BitVec 4) (imm : BitVec 32) (s : State) : State :=
  if !fits imm c.bits then s.raise .operand
  else if !extraFits x4 c then s.raise .operand
  else if !s.roomFor c.nsym then s.raise .range
  else (s.putAtCursor (pack c imm x4)).done

/-- The common decode step `DEC(bits)` (R131). -/
def decodeStep (c : CodecWidth) (s : State) : State :=
  if !s.holds c.nsym then s.raise .range
  else
    let vx := unpack c (s.buf.readBytes s.pos.toNat c.nsym)
    ({ s with a := vx.1, x := vx.2, pos := s.pos + BitVec.ofNat 16 c.nsym } : State).done

/-- `ENC6 imm` (R126). -/
def execEnc6 (x4 : BitVec 4) (imm : BitVec 32) (s : State) : Host.Outcome State Fault Refusal :=
  .next (encodeStep .w6 x4 imm s)

/-- `ENC8 imm, x=n` (R127). -/
def execEnc8 (x4 : BitVec 4) (imm : BitVec 32) (s : State) : Host.Outcome State Fault Refusal :=
  .next (encodeStep .w8 x4 imm s)

/-- `ENC12 imm` (R128). -/
def execEnc12 (x4 : BitVec 4) (imm : BitVec 32) (s : State) : Host.Outcome State Fault Refusal :=
  .next (encodeStep .w12 x4 imm s)

/-- `ENC16 imm, x=n` (R129). -/
def execEnc16 (x4 : BitVec 4) (imm : BitVec 32) (s : State) : Host.Outcome State Fault Refusal :=
  .next (encodeStep .w16 x4 imm s)

/-- `ENC32 imm, x=n` (R130). -/
def execEnc32 (x4 : BitVec 4) (imm : BitVec 32) (s : State) : Host.Outcome State Fault Refusal :=
  .next (encodeStep .w32 x4 imm s)

/-- `DEC6` (R132). -/
def execDec6 (s : State) : Host.Outcome State Fault Refusal := .next (decodeStep .w6 s)

/-- `DEC8` (R133). -/
def execDec8 (s : State) : Host.Outcome State Fault Refusal := .next (decodeStep .w8 s)

/-- `DEC12` (R134). -/
def execDec12 (s : State) : Host.Outcome State Fault Refusal := .next (decodeStep .w12 s)

/-- `DEC16` (R135). -/
def execDec16 (s : State) : Host.Outcome State Fault Refusal := .next (decodeStep .w16 s)

/-- `DEC32` (R136). -/
def execDec32 (s : State) : Host.Outcome State Fault Refusal := .next (decodeStep .w32 s)

end Sys2Proof.Machine
end

