-- ==== Sys2Proof/Machine/Checksum.lean ====
section
/-! DEFINITION. The 6-bit message checksum and its three commands (42_checksum.md). -/

namespace Sys2Proof.Machine

/-- `cksum(bs)`: the sum of the byte values modulo 64 (R140). -/
def cksum (bs : List Byte) : Six := BitVec.ofNat 6 (bs.map BitVec.toNat).sum

/-- `CKSUM s, e` (R141). -/
def execCksum (lo hi : BitVec 16) (s : State) : Host.Outcome State Fault Refusal :=
  if !s.rangeValid lo hi then .next (s.raise .range)
  else .next ({ s with ck := cksum (s.rangeBytes lo hi) } : State).done

/-- `CKAPP s` (R142). -/
def execCkapp (lo hi : BitVec 16) (s : State) : Host.Outcome State Fault Refusal :=
  if hi ≠ 0#16 then .next (s.raise .operand)
  else if s.pos.toNat < lo.toNat ∨ s.params.bufcap.toNat ≤ s.pos.toNat then .next (s.raise .range)
  else
    let c := cksum (s.rangeBytes lo s.pos)
    .next (({ s with ck := c } : State).putAtCursor [sym c]).done

/-- `CKVFY s, e`: `CK` is written before the comparison and keeps the value when it fails; bytes are compared (R143). -/
def execCkvfy (lo hi : BitVec 16) (s : State) : Host.Outcome State Fault Refusal :=
  if hi.toNat < lo.toNat ∨ s.len.toNat ≤ hi.toNat then .next (s.raise .range)
  else
    let c := cksum (s.rangeBytes lo hi)
    let s' : State := { s with ck := c }
    if sym c ≠ s.buf.read hi.toNat then .next (s'.fail .cksum) else .next s'.done

end Sys2Proof.Machine
end

