-- ==== Sys2Proof/Machine/Frame.lean ====
section
/-! DEFINITION. The frame assembler and parser (43_frame.md; offsets of 20_memory.md R69 and R70). -/

namespace Sys2Proof.Machine

/-- Symbols per entry of a request: 2 of the address, and for a write the value's (R150, R154). -/
def requestEntrySize (op : FrameOp) (w : FrameWidth) : Nat :=
  match op with
  | .read => 2
  | .write => 2 + w.codec.nsym

/-- One entry of a request; the extra bits are 0 and `RC` is not read (R150, R152). -/
def requestEntry (op : FrameOp) (w : FrameWidth) (e : TabEntry) : List Byte :=
  match op with
  | .read => pack .w12 (e.addr.setWidth 32) 0#4
  | .write => pack .w12 (e.addr.setWidth 32) 0#4 ++ pack w.codec e.val 0#4

/-- The summed bytes of a frame: sequence number, count, entries (20_memory.md R69, R70; 42_checksum.md R144). -/
def frameBody (seq count : Six) (entries : List Byte) : List Byte := sym seq :: sym count :: entries

/-- A request frame (R69, R154). -/
def requestFrame (op : FrameOp) (w : FrameWidth) (seq count : Six) (entries : List Byte) : List Byte :=
  [startMarker, op.char, w.char] ++ frameBody seq count entries ++
    [sym (cksum (frameBody seq count entries)), requestTerminator]

/-- The table entries a frame command uses, `TAB[0 .. COUNT)` (R94). -/
def State.entries (s : State) (count : Six) : List TabEntry := s.tab.toList.take count.toNat

/-- The common assemble step `ASM(op)` (R154). -/
def assemble (op : FrameOp) (wField : BitVec 2) (seq count : Six) (s : State) : State :=
  match FrameWidth.ofField wField with
  | none => s.raise .operand
  | some w =>
    if op = .write ∧ ¬ (s.entries count).all (fun e => fits e.val w.codec.bits) then s.raise .operand
    else
      let n := 7 + count.toNat * requestEntrySize op w
      if s.params.bufcap.toNat < n then s.raise .range
      else
        let frame := requestFrame op w seq count ((s.entries count).flatMap (requestEntry op w))
        ({ s with buf := s.buf.writeBytes 0 frame, len := BitVec.ofNat 16 n, pos := BitVec.ofNat 16 n } : State).done

/-- `ASMRD w=b, seq=s, count=c` (R155). -/
def execAsmrd (w : BitVec 2) (seq count : BitVec 6) (s : State) : Host.Outcome State Fault Refusal :=
  .next (assemble .read w seq count s)

/-- `ASMWR w=b, seq=s, count=c` (R156). -/
def execAsmwr (w : BitVec 2) (seq count : BitVec 6) (s : State) : Host.Outcome State Fault Refusal :=
  .next (assemble .write w seq count s)

/-- What the fixed fields of an accepted response say. -/
structure ResponseHeader where
  width : FrameWidth
  seq : Six
  count : Six
deriving DecidableEq, Repr

/-- The checks of `PARSE(op)` on the bytes `BUF[0 .. n)`, in their order (R160 steps 1 to 7; 60_exceptions.md R241). -/
def parseChecks (op : FrameOp) (buf : Memory) (n : Nat) : Except Failure ResponseHeader :=
  if n < 7 then .error .short
  else if sym (cksum (buf.readBytes 4 (n - 5))) ≠ buf.read (n - 1) then .error .cksum
  else if buf.read 0 ≠ startMarker ∨ buf.read 3 ≠ responseMarker then .error .format
  else if buf.read 1 ≠ op.char then .error .op
  else
    match FrameWidth.ofChar (buf.read 2) with
    | none => .error .width
    | some w =>
      let cnt := val (buf.read 5)
      let need := 7 + cnt.toNat * w.codec.nsym
      if n < need then .error .trunc
      else if need < n then .error .excess
      else .ok ⟨w, val (buf.read 4), cnt⟩

/-- Entry `i` of a response: the value and the return code of its group (R150, R160). -/
def responseEntry (w : FrameWidth) (buf : Memory) (i : Nat) : BitVec 32 × BitVec 4 :=
  unpack w.codec (buf.readBytes (6 + i * w.codec.nsym) w.codec.nsym)

/-- A table entry after the group that answers it: `RC` always, `VAL` in a read response only, `ADDR` never (R160). -/
def storeResponse (op : FrameOp) (e : TabEntry) (vx : BitVec 32 × BitVec 4) : TabEntry :=
  match op with
  | .read => { e with val := vx.1, rc := vx.2 }
  | .write => { e with rc := vx.2 }

/-- The table after a successful parse: entries `0 .. cnt−1` are answered, the others keep what they had (R160). -/
def storeResponses (op : FrameOp) (h : ResponseHeader) (buf : Memory) (tab : Vector TabEntry 64) : Vector TabEntry 64 :=
  Vector.ofFn fun i : Fin 64 =>
    if i.val < h.count.toNat then storeResponse op tab[i] (responseEntry h.width buf i.val) else tab[i]

/-- The common parse step `PARSE(op)` (R160). -/
def parse (op : FrameOp) (s : State) : State :=
  match parseChecks op s.buf s.len.toNat with
  | .error e => s.fail e
  | .ok h =>
    ({ s with
        tab := storeResponses op h s.buf s.tab
        fop := op.char
        fwidth := BitVec.ofNat 3 h.width.bytes
        fseq := h.seq
        fcount := h.count } : State).done

/-- `PARSERD` (R161). -/
def execParserd (s : State) : Host.Outcome State Fault Refusal := .next (parse .read s)

/-- `PARSEWR` (R162). -/
def execParsewr (s : State) : Host.Outcome State Fault Refusal := .next (parse .write s)

end Sys2Proof.Machine
end

