-- ==== Sys2Proof/Machine/System.lean ====
section
/-! DEFINITION. The system commands (47_system.md). -/

namespace Sys2Proof.Machine

/-- `NOP`: `STATUS.ERR <- 0` and nothing else (R220). -/
def execNop (s : State) : Host.Outcome State Fault Refusal := .next s.done

/-- `RESET`, the only command that clears `STATUS.FAULT` (R221). -/
def execReset (s : State) : Host.Outcome State Fault Refusal := .next s.resetBlock

/-- `TOUCH`: the number before the increment, then the increment modulo 64 (R222). -/
def execTouch (s : State) : Host.Outcome State Fault Refusal :=
  .next ({ s with a := s.seq.setWidth 32, seq := s.seq + 1#6 } : State).done

end Sys2Proof.Machine
end

