-- ==== Sys2Proof/Machine/Dispatch.lean ====
section
/-! DEFINITION. One arm per command, each one call of the command's meaning. -/

namespace Sys2Proof.Machine

def exec (i : Instr) (s : State) : Host.Outcome State Fault Refusal :=
  match i with
  | .nop => Sys2Proof.Machine.execNop s
  | .reset => Sys2Proof.Machine.execReset s
  | .touch => Sys2Proof.Machine.execTouch s
  | .clrb => Sys2Proof.Machine.execClrb s
  | .setpos x4 imm => Sys2Proof.Machine.execSetpos x4 imm s
  | .putb x4 imm => Sys2Proof.Machine.execPutb x4 imm s
  | .getb => Sys2Proof.Machine.execGetb s
  | .tabw rc idx addr val => Sys2Proof.Machine.execTabw rc idx addr val s
  | .enc6 x4 imm => Sys2Proof.Machine.execEnc6 x4 imm s
  | .enc8 x4 imm => Sys2Proof.Machine.execEnc8 x4 imm s
  | .enc12 x4 imm => Sys2Proof.Machine.execEnc12 x4 imm s
  | .enc16 x4 imm => Sys2Proof.Machine.execEnc16 x4 imm s
  | .enc32 x4 imm => Sys2Proof.Machine.execEnc32 x4 imm s
  | .dec6 => Sys2Proof.Machine.execDec6 s
  | .dec8 => Sys2Proof.Machine.execDec8 s
  | .dec12 => Sys2Proof.Machine.execDec12 s
  | .dec16 => Sys2Proof.Machine.execDec16 s
  | .dec32 => Sys2Proof.Machine.execDec32 s
  | .cksum lo hi => Sys2Proof.Machine.execCksum lo hi s
  | .ckapp lo hi => Sys2Proof.Machine.execCkapp lo hi s
  | .ckvfy lo hi => Sys2Proof.Machine.execCkvfy lo hi s
  | .crcinit => Sys2Proof.Machine.execCrcinit s
  | .crcupdb x4 imm => Sys2Proof.Machine.execCrcupdb x4 imm s
  | .crcupdw x4 imm => Sys2Proof.Machine.execCrcupdw x4 imm s
  | .crcupdr lo hi => Sys2Proof.Machine.execCrcupdr lo hi s
  | .crcfin => Sys2Proof.Machine.execCrcfin s
  | .crcvfy x4 imm => Sys2Proof.Machine.execCrcvfy x4 imm s
  | .asmrd w seq count => Sys2Proof.Machine.execAsmrd w seq count s
  | .asmwr w seq count => Sys2Proof.Machine.execAsmwr w seq count s
  | .parserd => Sys2Proof.Machine.execParserd s
  | .parsewr => Sys2Proof.Machine.execParsewr s

end Sys2Proof.Machine
end

