-- ==== Sys2Proof/Machine/Step.lean ====
section
/-! DEFINITION. One step: the block takes the oldest thing the host has presented (10_state.md R20, R43, R44). -/

namespace Sys2Proof.Machine

/-- A command word in a state: a word that is no command raises `Fault(E_ILLEGAL)` (30_encoding.md R98, R99); any other is
executed. -/
def execWord (w : BitVec 64) (s : State) : Host.Outcome State Fault Refusal :=
  match decode w with
  | .error _ => .next (s.raise .illegal)
  | .ok i => exec i s

/-- One step. With nothing presented the block waits. -/
def step (s : State) : Host.Outcome State Fault Refusal :=
  match s.takeInput with
  | .idle => .next s
  | .command w s' => execWord w s'
  | .resetInput s' => .next s'.resetBlock
  | .together => .fault .simultaneousCommands

/-- The state in which the host has presented the word `w` of `nbits` bits ahead of everything else. -/
def State.withFetchWord (s : State) (nbits w : Nat) : State := s.presentFirst (tableWord nbits w)

end Sys2Proof.Machine
end

