-- ==== Sys2Proof/Machine/Ports.lean ====
section
/-! DEFINITION. The host read port (10_state.md R35, R41). It has no effect on the state, so it is a function of it. -/

namespace Sys2Proof.Machine

/-- The register with a number, zero-extended; 0 for a number that names none (R35). -/
def State.readRegister (s : State) (n : BitVec 16) : Word :=
  match n.toNat with
  | 0 => s.a
  | 1 => s.x.setWidth 32
  | 2 => s.pos.setWidth 32
  | 3 => s.len.setWidth 32
  | 4 => s.ck.setWidth 32
  | 5 => s.crc
  | 6 => s.seq.setWidth 32
  | 7 => s.status.setWidth 32
  | 8 => s.fop.setWidth 32
  | 9 => s.fwidth.setWidth 32
  | 10 => s.fseq.setWidth 32
  | 11 => s.fcount.setWidth 32
  | 12 => idValue
  | _ => 0#32

/-- A valid byte of the buffer; 0 at and above `LEN` (R41 space 1). -/
def State.readBuffer (s : State) (i : BitVec 16) : Word :=
  if i < s.len then (s.buf.read i.toNat).setWidth 32 else 0#32

/-- A field of a table entry: entry in `index[5:0]`, field in `index[7:6]`, `index[15:8]` must be 0 (R41 space 2). -/
def State.readTable (s : State) (index : BitVec 16) : Word :=
  let e := s.tab[(index.extractLsb' 0 6).toNat]'((index.extractLsb' 0 6).isLt)
  if index.extractLsb' 8 8 ≠ 0#8 then 0#32
  else if index.extractLsb' 6 2 = 0#2 then e.addr.setWidth 32
  else if index.extractLsb' 6 2 = 1#2 then e.val
  else if index.extractLsb' 6 2 = 2#2 then e.rc.setWidth 32
  else 0#32

/-- `HostRead(space, index)` (R41). -/
def hostRead (space : BitVec 2) (index : BitVec 16) (s : State) : Word :=
  if space = 0#2 then s.readRegister index
  else if space = 1#2 then s.readBuffer index
  else if space = 2#2 then s.readTable index
  else 0#32

end Sys2Proof.Machine
end

