-- ==== Sys2Proof/Machine/Sequences.lean ====
section
/-! DEFINITION. Host software over the block's commands: running a list of commands (10_state.md R24), the
pseudo-commands of 30_encoding.md R105, the orders of use of 70_reset_and_hazards.md R264, the CRC streams of
45_handshake_sequences.md R196 to R202 and the two functions it records (R203, R204). The block knows nothing of any of it
(R195). -/

namespace Sys2Proof.Machine

/-- Running a finite list of commands is folding `exec` over it (R24). -/
def execAll : List Instr → State → Host.Outcome State Fault Refusal
  | [], s => .next s
  | i :: rest, s =>
    match exec i s with
    | .next s' => execAll rest s'
    | .fault r => .fault r
    | .refused r => .refused r

/-- `PUTB` of each byte of a text (R105). -/
def putBytes (text : List Byte) : List Instr := text.map fun b => .putb 0#4 (b.setWidth 32)

/-- `CRCUPDB` of each byte of a list. -/
def feedBytes (bs : List Byte) : List Instr := bs.map fun b => .crcupdb 0#4 (b.setWidth 32)

/-- `LOADFRAME text` (R105). -/
def loadFrame (text : List Byte) : List Instr := .clrb :: putBytes text

/-- `ENC<bits> value, x=n`. -/
def encCommand : CodecWidth → BitVec 4 → BitVec 32 → Instr
  | .w6, x, v => .enc6 x v
  | .w8, x, v => .enc8 x v
  | .w12, x, v => .enc12 x v
  | .w16, x, v => .enc16 x v
  | .w32, x, v => .enc32 x v

/-- `DEC<bits>`. -/
def decCommand : CodecWidth → Instr
  | .w6 => .dec6
  | .w8 => .dec8
  | .w12 => .dec12
  | .w16 => .dec16
  | .w32 => .dec32

/-- `encode(bits, value)` (R105). -/
def encodeCommands (c : CodecWidth) (v : BitVec 32) : List Instr := [encCommand c 0#4 v]

/-- `decode(bits, bytes, pos)` with the bytes in `BUF` (R105). -/
def decodeCommands (c : CodecWidth) (pos : BitVec 16) : List Instr := [.setpos 0#4 (pos.setWidth 32), decCommand c]

/-- `TABW i, registers[i], values[i]` for each `i` (R105). DESIGN CHOICE: an index above 63, which the command word cannot
express (93_implementation_defined.md U13), goes into `IDX` modulo 64 (log entry 19). -/
def fillTable (regs : List (BitVec 12 × BitVec 32)) : List Instr :=
  regs.zipIdx.map fun r => .tabw 0#4 (BitVec.ofNat 6 r.2) r.1.1 r.1.2

/-- `AssembleReadRequest(seq, registers[])`: the width is 4, field value 2 (R105, D18). DESIGN CHOICE: a list of more than
63 registers, whose count cannot be expressed (U13), goes into `COUNT` modulo 64 (log entry 19). -/
def assembleReadRequest (seq : BitVec 6) (regs : List (BitVec 12)) : List Instr :=
  fillTable (regs.map fun r => (r, 0#32)) ++ [.asmrd 2#2 seq (BitVec.ofNat 6 regs.length)]

/-- `AssembleWriteRequest(seq, registers[], values[], bits)`, the width given as its field (R105). DESIGN CHOICE: more than
63 registers as in `assembleReadRequest` (log entry 19). -/
def assembleWriteRequest (w : BitVec 2) (seq : BitVec 6) (regs : List (BitVec 12 × BitVec 32)) : List Instr :=
  fillTable regs ++ [.asmwr w seq (BitVec.ofNat 6 regs.length)]

/-- `ParseReadResponse(text)` (R105). -/
def parseReadResponse (text : List Byte) : List Instr := loadFrame text ++ [.parserd]

/-- `ParseWriteResponse(text)` (R105). -/
def parseWriteResponse (text : List Byte) : List Instr := loadFrame text ++ [.parsewr]

/-- `touchSequence()` (R105). -/
def touchSequence : List Instr := [.touch]

/-- `verify(msg)` of a request of `n` bytes in `BUF` (R105). -/
def verifyRequest (n : Nat) : List Instr := [.ckvfy 3#16 (BitVec.ofNat 16 (n - 2))]

/-- `verify(msg)` of a response of `n` bytes in `BUF` (R105). -/
def verifyResponse (n : Nat) : List Instr := [.ckvfy 4#16 (BitVec.ofNat 16 (n - 1))]

/-- The request path of R264: fill the table, `TOUCH`, copy `A[5:0]` from the read port into the sequence field, assemble.
-/
def requestPath (fill : List Instr) (assembleWith : BitVec 6 → Instr) (s : State) : Host.Outcome State Fault Refusal :=
  match execAll (fill ++ [.touch]) s with
  | .next s' => exec (assembleWith ((hostRead 0#2 0#16 s').extractLsb' 0 6)) s'
  | .fault r => .fault r
  | .refused r => .refused r

/-- The last step of the request path of R264: the host reads `LEN` and then the `LEN` bytes of `BUF` on the read port. -/
def readOut (s : State) : List Byte :=
  (List.range (hostRead 0#2 3#16 s).toNat).map fun i => (hostRead 1#2 (BitVec.ofNat 16 i) s).setWidth 8

/-- Nibble `r_j` of a challenge, `j` from 0 to 7 (R196, R197 `NIB_ORDER`). -/
def challengeNibble (order : NibOrder) (challenge : Word) (j : Nat) : Nat :=
  match order with
  | .lsnFirst => (challenge.extractLsb' (4 * j) 4).toNat
  | .msnFirst => (challenge.extractLsb' (28 - 4 * j) 4).toNat

/-- Byte `i` of the key rotated by `r` (R197 `ROT_DIR`). -/
def rotatedKeyByte (dir : RotDir) (key : Vector Byte 16) (r i : Nat) : Byte :=
  match dir with
  | .startAt => key[(i + r) % 16]'(Nat.mod_lt _ (by decide))
  | .placeAt => key[(i + (16 - r % 16)) % 16]'(Nat.mod_lt _ (by decide))

/-- The 128 bytes of the key expansion: 8 blocks of 16 bytes (R196). -/
def expandedKey (order : NibOrder) (dir : RotDir) (challenge : Word) (key : Vector Byte 16) : List Byte :=
  (List.range 8).flatMap fun j =>
    (List.range 16).map fun i => rotatedKeyByte dir key (challengeNibble order challenge j) i

/-- The sequence of `Encrypt(challenge, key)`; the hash is in `A` (R198). -/
def encryptChallenge (order : NibOrder) (dir : RotDir) (challenge : Word) (key : Vector Byte 16) : List Instr :=
  .clrb :: putBytes (expandedKey order dir challenge key) ++ [.crcinit, .crcupdr 0#16 128#16, .crcfin]

/-- The function's result from `A`: the four hash bytes read little-endian (R199 `HASH_BYTE_ORDER`). -/
def hashResult (order : HashByteOrder) (a : Word) : Word :=
  match order with
  | .le => a
  | .be => a.extractLsb' 0 8 ++ a.extractLsb' 8 8 ++ a.extractLsb' 16 8 ++ a.extractLsb' 24 8

/-- The three digit characters of a password from 100 to 999, hundreds first (R200). -/
def passwordDigits (password : Nat) : List Byte :=
  [BitVec.ofNat 8 (0x30 + password / 100 % 10), BitVec.ofNat 8 (0x30 + password / 10 % 10),
   BitVec.ofNat 8 (0x30 + password % 10)]

/-- The commands of one round under the reading `block` (R202). -/
def roundBlock (password : Nat) (salt : Word) : List Instr :=
  feedBytes (passwordDigits password) ++ [.crcupdw 0#4 salt]

/-- The bytes of one round, `d0 d1 d2 s0 s1 s2 s3`, in another order (R201). -/
def roundBytes (order : List (Fin 7)) (password : Nat) (salt : Word) : List Byte :=
  order.map fun k => (passwordDigits password ++ littleEndian salt).getD k.val 0#8

/-- The commands of one round under a reading of `PW_INTERLEAVE` (R201, R202). -/
def roundCommands (order : Interleave) (password : Nat) (salt : Word) : List Instr :=
  match order with
  | .block => roundBlock password salt
  | .alternate => feedBytes (roundBytes [0, 3, 1, 4, 2, 5, 6] password salt)
  | .other order => feedBytes (roundBytes order.toList password salt)

/-- The sequence of `Encrypt(password, salt)`: ten rounds; the hash is in `A` (R200, R202). -/
def encryptPassword (order : Interleave) (password : Nat) (salt : Word) : List Instr :=
  .crcinit :: (List.replicate 10 (roundCommands order password salt)).flatten ++ [.crcfin]

/-- `Decrypt(encodedGuid, password)`, a function of the host software and of no command (R204): byte `i` is XORed with
`password · (i + 1)` modulo 256. -/
def decryptGuid (guid : Vector Byte 16) (password : Nat) : Vector Byte 16 :=
  Vector.ofFn fun i : Fin 16 => guid[i] ^^^ BitVec.ofNat 8 (password * (i.val + 1))

/-- The letter of a nibble under `ACEFHLPSU`, another host function (R203); `alphaMap` is the open point `ALPHA_MAP`, the
letters of nibbles 9 to 15. -/
def alphaLetter (alphaMap : Vector Byte 7) (nibble : BitVec 4) : Byte :=
  let table := [0x41#8, 0x43#8, 0x45#8, 0x46#8, 0x48#8, 0x4C#8, 0x50#8, 0x53#8, 0x55#8] ++ alphaMap.toList
  table.getD nibble.toNat 0#8

/-- `GetAlphaCode(code)`: the letters of the high and the low nibble of the low byte (R203). -/
def alphaCode (alphaMap : Vector Byte 7) (code : Word) : List Byte :=
  [alphaLetter alphaMap (code.extractLsb' 4 4), alphaLetter alphaMap (code.extractLsb' 0 4)]

end Sys2Proof.Machine
end

