-- ==== Sys2Proof/Safety.lean ====
section
/-! DEFINITION. What counts as a good state and a safe run. -/

namespace Sys2Proof.Machine

/-- The outcome codes a command can leave (60_exceptions.md R230): 9, 10, 11 and 15 are never produced. -/
def producedCode (e : BitVec 4) : Prop := e.toNat ≤ 8 ∨ (12 ≤ e.toNat ∧ e.toNat ≤ 14)

/-- The invariant of the block: the bound on `BUFCAP` (00_scope.md R6), `POS ≤ LEN ≤ BUFCAP` (10_state.md R26), a
canonical buffer whose cells lie below `BUFCAP` (R37), produced outcome codes only, a fault code only with `FAULT` set
(60_exceptions.md R230, R236), and the values R30 and R31 give `FOP` and `FWIDTH`. -/
structure Inv (s : State) : Prop where
  params : s.params.wf = true
  pos_le_len : s.pos.toNat ≤ s.len.toNat
  len_le_cap : s.len.toNat ≤ s.params.bufcap.toNat
  buf_wf : s.buf.wf = true
  buf_below : ∀ c ∈ s.buf, c.1 < s.params.bufcap.toNat
  err_produced : producedCode s.err
  fault_recorded : 12 ≤ s.err.toNat → s.faultBit = true
  fop_legal : s.fop = 0#8 ∨ s.fop = FrameOp.read.char ∨ s.fop = FrameOp.write.char
  fwidth_legal : s.fwidth = 0#3 ∨ s.fwidth = 1#3 ∨ s.fwidth = 2#3 ∨ s.fwidth = 4#3

/-- No fault has been recorded since the last reset (60_exceptions.md R246). -/
def NoFaultRecorded (s : State) : Prop := s.faultBit = false

/-- The host serialises its command streams, as 20_memory.md R73 asks: it never presents two words at once. -/
def Serialised : List Input → Prop
  | [] => True
  | .together _ _ :: _ => False
  | .command _ :: rest => Serialised rest
  | .resetInput :: rest => Serialised rest

/-- Two states that differ at most in the bytes of `BUF` at indices `≥ LEN`, whose content is unspecified
(10_state.md R37; 93_implementation_defined.md U4). -/
structure SameButInvalid (s t : State) : Prop where
  rest : t = { s with buf := t.buf }
  valid : ∀ i, i < s.len.toNat → t.buf.read i = s.buf.read i

/-- Two states that the read port cannot tell apart (10_state.md R41). -/
def SameOnReadPort (s t : State) : Prop :=
  ∀ (space : BitVec 2) (index : BitVec 16), hostRead space index s = hostRead space index t

/-- The bytes `bs` were stored at the cursor of `s` and the command completed: `POS` advanced by their number,
`LEN <- max(LEN, POS)`, every byte of `BUF` outside `[POS, POS + n)` reads as before, and nothing else but `STATUS.ERR`
changed (10_state.md R25, R26; 60_exceptions.md R234). -/
structure StoredAtCursor (s t : State) (bs : List Byte) : Prop where
  rest : t = { s with buf := t.buf, pos := t.pos, len := t.len, err := 0#4 }
  pos : t.pos.toNat = s.pos.toNat + bs.length
  len : t.len.toNat = max s.len.toNat (s.pos.toNat + bs.length)
  stored : t.buf.readBytes s.pos.toNat bs.length = bs
  other : ∀ j, j < s.pos.toNat ∨ s.pos.toNat + bs.length ≤ j → t.buf.read j = s.buf.read j

/-- The buffer holds a response frame of operation `op`, width `w`, with the sequence number and count given: the fixed
offsets of 20_memory.md R70 and the length of 43_frame.md R153. -/
structure HoldsResponse (op : FrameOp) (s : State) (w : FrameWidth) (seq count : Six) : Prop where
  length : s.len.toNat = 7 + count.toNat * w.codec.nsym
  start : s.buf.read 0 = 0x24#8
  operation : s.buf.read 1 = op.char
  width : s.buf.read 2 = w.char
  marker : s.buf.read 3 = 0x3D#8
  sequence : val (s.buf.read 4) = seq
  count : val (s.buf.read 5) = count
  checksum : s.buf.read (s.len.toNat - 1) = sym (cksum (s.buf.readBytes 4 (s.len.toNat - 5)))

/-- The bytes of a response frame that carries the given values and return codes (20_memory.md R70; 43_frame.md R150).
It is meant for at most 63 entries; DESIGN CHOICE: the count of more is taken modulo 64 (log entry 19). -/
def responseFrame (op : FrameOp) (w : FrameWidth) (seq : Six) (entries : List (BitVec 32 × BitVec 4)) : List Byte :=
  let body := sym seq :: sym (BitVec.ofNat 6 entries.length) :: entries.flatMap fun e => pack w.codec e.1 e.2
  [0x24#8, op.char, w.char, 0x3D#8] ++ body ++ [sym (cksum body)]

/-- The parse command of an operation: `PARSERD` or `PARSEWR`. -/
def parseCommand : FrameOp → Instr
  | .read => .parserd
  | .write => .parsewr

/-- `t` is `s` after a reset (10_state.md R45): every register at its reset value, every table field 0. The buffer is empty
because `LEN` is 0; its bytes are not cleared (R37). The parameters and what the host has presented stay. -/
structure AfterReset (s t : State) : Prop where
  a : t.a = 0#32
  x : t.x = 0#4
  pos : t.pos = 0#16
  len : t.len = 0#16
  ck : t.ck = 0#6
  crc : t.crc = s.params.crcInit
  seq : t.seq = 0#6
  err : t.err = 0#4
  faultBit : t.faultBit = false
  fop : t.fop = 0x00#8
  fwidth : t.fwidth = 0#3
  fseq : t.fseq = 0#6
  fcount : t.fcount = 0#6
  tab : ∀ e : Fin 64, t.tab[e] = ⟨0#12, 0#32, 0#4⟩
  buf : t.buf = s.buf
  params : t.params = s.params
  inputs : t.inputs = s.inputs

/-- The bytes of `BUF` a command may store to in a state: the first index and the number (20_memory.md R65, the column of
bytes written). A command that stores nothing has the empty span. -/
def storeSpan (i : Instr) (s : State) : Nat × Nat :=
  match i with
  | .putb _ _ => (s.pos.toNat, 1)
  | .enc6 _ _ => (s.pos.toNat, 1)
  | .enc8 _ _ => (s.pos.toNat, 2)
  | .enc12 _ _ => (s.pos.toNat, 2)
  | .enc16 _ _ => (s.pos.toNat, 3)
  | .enc32 _ _ => (s.pos.toNat, 6)
  | .ckapp _ _ => (s.pos.toNat, 1)
  | .asmrd _ _ count => (0, 7 + count.toNat * 2)
  | .asmwr w _ count =>
    match FrameWidth.ofField w with
    | none => (0, 0)
    | some fw => (0, 7 + count.toNat * (2 + fw.codec.nsym))
  | _ => (0, 0)

end Sys2Proof.Machine
end

