-- ==== Sys2Proof/Certificates/Slice0/Obligations.lean ====
section
/-! DEFINITION. The statements for the provers. Each docstring names the rule of spec/ it comes from. -/

open Sys2Proof Sys2Proof.Machine

/-- 30_encoding.md R101: decoding the word of a command gives the command back, for every command and every operand. -/
def Obligations.DecodeOfEncodeIsTheCommand : Prop := ∀ i : Instr, decode (encode i) = .ok i

/-- 30_encoding.md R101: two different words never decode to the same command, and a command has exactly one word. -/
def Obligations.EncodeOfDecodeIsTheWord : Prop := ∀ (c : CmdWord) (i : Instr), decode c = .ok i → encode i = c

/-- spec/opcode_table.json: a word decodes to a command of a row exactly when its masked bits are the row's match. -/
def Obligations.DecodeAgreesWithOpcodeTable : Prop :=
  ∀ (c : CmdWord) (row : TableRow), row ∈ opcodeTable →
    (c &&& row.maskBits = row.matchBits ↔ ∃ i, decode c = .ok i ∧ i.mnemonic = row.mnemonic)

/-- 30_encoding.md R98: a reserved opcode raises `Fault(E_ILLEGAL)` and nothing else changes. -/
def Obligations.ReservedOpcodeRaisesIllegal : Prop :=
  ∀ (s : State) (w : CmdWord),
    (∃ o, o = (w.extractLsb' 56 8).toNat ∧
      ((0x03 ≤ o ∧ o ≤ 0x07) ∨ (0x0D ≤ o ∧ o ≤ 0x0F) ∨ (0x15 ≤ o ∧ o ≤ 0x17) ∨ (0x1D ≤ o ∧ o ≤ 0x1F) ∨
       (0x23 ≤ o ∧ o ≤ 0x2F) ∨ (0x36 ≤ o ∧ o ≤ 0x3F) ∨ (0x42 ≤ o ∧ o ≤ 0x47) ∨ (0x4A ≤ o ∧ o ≤ 0xFF))) →
    execWord w s = .next { s with err := 12#4, faultBit := true }

/-- 30_encoding.md R99: a listed opcode with a 1 in any reserved bit of its format raises `Fault(E_ILLEGAL)`, before every
operand check. The reserved bits are the mask bits of the opcode's row below bit 56. -/
def Obligations.ReservedBitRaisesIllegal : Prop :=
  ∀ (s : State) (w : CmdWord) (row : TableRow), row ∈ opcodeTable → w.extractLsb' 56 8 = row.matchBits.extractLsb' 56 8 →
    (∃ k, k < 56 ∧ row.maskBits.getLsbD k = true ∧ w.getLsbD k = true) →
    execWord w s = .next { s with err := 12#4, faultBit := true }

/-- 30_encoding.md R104: the words the spec writes out for its examples decode to the commands beside them. -/
def Obligations.WordsOfTheSpecDecode : Prop :=
  decode 0x1C00000000000000#64 = .ok .dec32 ∧ decode 0x1420000000000064#64 = .ok (.enc32 2#4 100#32) ∧
  decode 0x22000003000F0000#64 = .ok (.ckvfy 3#16 15#16) ∧ decode 0x4002000500000000#64 = .ok (.asmrd 2#2 0#6 5#6) ∧
  decode 0x0C20100300000064#64 = .ok (.tabw 2#4 1#6 0x003#12 100#32) ∧
  decode 0x32000000CBF43926#64 = .ok (.crcupdw 0#4 0xCBF43926#32) ∧
  decode 0x0900000000000006#64 = .ok (.setpos 0#4 6#32) ∧ decode 0x0200000000000000#64 = .ok .touch

/-- 10_state.md R43, R20: a step takes the oldest command word the host has presented and executes the command it decodes
to; the word is consumed. The queue of what the host has presented is the model's (log entry 2). -/
def Obligations.StepRunsTheDecodedCommand : Prop :=
  ∀ (s : State) (w : CmdWord) (rest : List Input), s.inputs = .command w :: rest →
    step s = execWord w { s with inputs := rest } ∧
    ∀ i : Instr, decode w = .ok i → step s = exec i { s with inputs := rest }

/-- 10_state.md R44: the reset input puts every piece of state at the value R45 gives, with the same effect as `RESET`.
That nothing presented leaves the state as it is is the model's choice (log entry 2). -/
def Obligations.ResetInputActsAsTheResetCommand : Prop :=
  (∀ (s : State) (rest : List Input), s.inputs = .resetInput :: rest →
    ∃ t, step s = .next t ∧ AfterReset { s with inputs := rest } t ∧ exec .reset { s with inputs := rest } = .next t) ∧
  ∀ s : State, s.inputs = [] → step s = .next s

/-- 20_memory.md R73: two command words at once have no step. That the queue can hold such an event, and the fault's name,
are the model's (log entries 2 and 6). -/
def Obligations.SimultaneousCommandsHaveNoStep : Prop :=
  ∀ (s : State) (w₁ w₂ : CmdWord) (rest : List Input), s.inputs = .together w₁ w₂ :: rest →
    step s = .fault .simultaneousCommands

/-- 10_state.md R26 and the rules that `Inv` names: every step keeps the invariant of the block. -/
def Obligations.StepKeepsTheBlockInvariant : Prop := ∀ s t : State, Inv s → step s = .next t → Inv t

/-- 10_state.md R26: the invariant holds after reset, for every parameter record that 00_scope.md R6 allows. -/
def Obligations.ResetHasTheBlockInvariant : Prop :=
  (∀ p : Params, p.wf = true → Inv (State.resetWith p)) ∧ Inv State.reset

/-- 10_state.md R20, R24: a step is a total function, so a run over any serialised command stream never stops, and every
state of it has the invariant. -/
def Obligations.SerialisedRunsNeverStop : Prop :=
  ∀ (n : Nat) (s : State), Inv s → Serialised s.inputs →
    ∃ t : State, Sys2Proof.core.run n s = .next t ∧ Inv t ∧ Serialised t.inputs

/-- 10_state.md R37: no command reads a byte of `BUF` at an index `≥ LEN`, and the read port does not show one, so two
states that differ only there stay alike and look alike. -/
def Obligations.InvalidBytesAreUnobservable : Prop :=
  ∀ s t s' : State, Inv s → Inv t → SameButInvalid s t → step s = .next s' →
    ∃ t', step t = .next t' ∧ SameButInvalid s' t' ∧ SameOnReadPort s' t'

/-- 10_state.md R47, the reads column, with R33 and 60_exceptions.md R246: no command's effect depends on `A`, `X`, `CK`,
the parse registers or `STATUS`. Changing them changes nothing but the registers themselves, where the command leaves
them alone, and the sticky bit. -/
def Obligations.RegistersNoCommandReads : Prop :=
  ∀ (i : Instr) (s : State) (a : BitVec 32) (x : BitVec 4) (ck : BitVec 6) (fop : BitVec 8) (fwidth : BitVec 3)
    (fseq fcount : BitVec 6) (err : BitVec 4) (faultBit : Bool),
    ∃ t t' : State, exec i s = .next t ∧
      exec i { s with a := a, x := x, ck := ck, fop := fop, fwidth := fwidth, fseq := fseq, fcount := fcount,
                      err := err, faultBit := faultBit } = .next t' ∧
      t' = { t with a := t'.a, x := t'.x, ck := t'.ck, fop := t'.fop, fwidth := t'.fwidth, fseq := t'.fseq,
                    fcount := t'.fcount, faultBit := t'.faultBit } ∧
      (t'.a = t.a ∨ (t.a = s.a ∧ t'.a = a)) ∧ (t'.x = t.x ∨ (t.x = s.x ∧ t'.x = x)) ∧
      (t'.ck = t.ck ∨ (t.ck = s.ck ∧ t'.ck = ck)) ∧ (t'.fop = t.fop ∨ (t.fop = s.fop ∧ t'.fop = fop)) ∧
      (t'.fwidth = t.fwidth ∨ (t.fwidth = s.fwidth ∧ t'.fwidth = fwidth)) ∧
      (t'.fseq = t.fseq ∨ (t.fseq = s.fseq ∧ t'.fseq = fseq)) ∧
      (t'.fcount = t.fcount ∨ (t.fcount = s.fcount ∧ t'.fcount = fcount)) ∧
      (t'.faultBit = t.faultBit ∨ (t.faultBit = s.faultBit ∧ t'.faultBit = faultBit))

/-- 10_state.md R35, the column of the commands each register is written via, and R47: every other command leaves the
register as it was. No command changes the parameters or what the host has presented. -/
def Obligations.RegistersAreWrittenOnlyByTheirCommands : Prop :=
  ∀ (i : Instr) (s t : State), exec i s = .next t →
    (t.a = s.a ∨ i.mnemonic ∈ ["DEC6", "DEC8", "DEC12", "DEC16", "DEC32", "GETB", "CRCFIN", "TOUCH", "RESET"]) ∧
    (t.x = s.x ∨ i.mnemonic ∈ ["DEC6", "DEC8", "DEC12", "DEC16", "DEC32", "RESET"]) ∧
    (t.pos = s.pos ∨ i.mnemonic ∈ ["CLRB", "SETPOS", "PUTB", "GETB", "ENC6", "ENC8", "ENC12", "ENC16", "ENC32", "DEC6",
      "DEC8", "DEC12", "DEC16", "DEC32", "CKAPP", "ASMRD", "ASMWR", "RESET"]) ∧
    (t.len = s.len ∨ i.mnemonic ∈ ["CLRB", "PUTB", "ENC6", "ENC8", "ENC12", "ENC16", "ENC32", "CKAPP", "ASMRD", "ASMWR",
      "RESET"]) ∧
    (t.ck = s.ck ∨ i.mnemonic ∈ ["CKSUM", "CKAPP", "CKVFY", "RESET"]) ∧
    (t.crc = s.crc ∨ i.mnemonic ∈ ["CRCINIT", "CRCUPDB", "CRCUPDW", "CRCUPDR", "RESET"]) ∧
    (t.seq = s.seq ∨ i.mnemonic ∈ ["TOUCH", "RESET"]) ∧
    ((t.fop = s.fop ∧ t.fwidth = s.fwidth ∧ t.fseq = s.fseq ∧ t.fcount = s.fcount) ∨
      i.mnemonic ∈ ["PARSERD", "PARSEWR", "RESET"]) ∧
    t.params = s.params ∧ t.inputs = s.inputs

/-- 20_memory.md R65, the column of bytes written: a command changes no byte of `BUF` outside the bytes it stores to, which
start at the cursor or, for a frame, at index 0. A command that stores nothing leaves every byte as it was. That bytes which
become invalid are kept too is the model's choice (log entry 4). -/
def Obligations.BytesOutsideTheStoreAreKept : Prop :=
  ∀ (i : Instr) (s t : State), s.buf.wf = true → exec i s = .next t →
    ∀ j, (j < (storeSpan i s).1 ∨ (storeSpan i s).1 + (storeSpan i s).2 ≤ j) → t.buf.read j = s.buf.read j

/-- 10_state.md R38: which commands change an entry of `TAB`, and which of its fields. Entry 63 is reached by `TABW` and a
reset only, because a count is at most 63. -/
def Obligations.TableIsWrittenOnlyByItsCommands : Prop :=
  ∀ (i : Instr) (s t : State), exec i s = .next t → ∀ e : Fin 64, t.tab[e] ≠ s.tab[e] →
    i = .reset ∨ (∃ rc idx addr val, i = .tabw rc idx addr val ∧ idx.toNat = e.val) ∨
    (i = .parserd ∧ e.val < t.fcount.toNat ∧ t.tab[e].addr = s.tab[e].addr) ∨
    (i = .parsewr ∧ e.val < t.fcount.toNat ∧ t.tab[e].addr = s.tab[e].addr ∧ t.tab[e].val = s.tab[e].val)

/-- 60_exceptions.md R230 and R232: which command can leave which outcome code, and which can only succeed. -/
def Obligations.OutcomeCodesOfEachCommand : Prop :=
  ∀ (i : Instr) (s t : State), exec i s = .next t →
    producedCode t.err ∧ t.err ≠ 12#4 ∧
    (t.err = 2#4 → i.mnemonic ∈ ["CKVFY", "PARSERD", "PARSEWR"]) ∧
    (t.err ∈ [1#4, 3#4, 4#4, 5#4, 6#4, 7#4] → i.mnemonic ∈ ["PARSERD", "PARSEWR"]) ∧
    (t.err = 8#4 → i.mnemonic = "CRCVFY") ∧
    (t.err = 13#4 → i.mnemonic ∈ ["SETPOS", "PUTB", "ENC6", "ENC8", "ENC12", "ENC16", "CKAPP", "CRCUPDB", "CRCUPDW",
      "CRCVFY", "ASMRD", "ASMWR"]) ∧
    (t.err = 14#4 → i.mnemonic ∈ ["SETPOS", "PUTB", "GETB", "ENC6", "ENC8", "ENC12", "ENC16", "ENC32", "DEC6", "DEC8",
      "DEC12", "DEC16", "DEC32", "CKSUM", "CKAPP", "CKVFY", "CRCUPDR", "ASMRD", "ASMWR"]) ∧
    (i.mnemonic ∈ ["NOP", "RESET", "TOUCH", "CLRB", "TABW", "CRCINIT", "CRCFIN"] → t.err = 0#4)

/-- 60_exceptions.md R235, R236: a command that fails changes `STATUS.ERR` only (and `CK`, for `CKVFY`); one that faults
changes `STATUS.ERR` and sets `STATUS.FAULT`, and nothing else. -/
def Obligations.FailuresAndFaultsChangeOnlyStatus : Prop :=
  ∀ (i : Instr) (s t : State), exec i s = .next t →
    ((1 ≤ t.err.toNat ∧ t.err.toNat ≤ 8) →
      t = { s with err := t.err, ck := t.ck } ∧ (i.mnemonic ≠ "CKVFY" → t.ck = s.ck)) ∧
    ((12 ≤ t.err.toNat ∧ t.err.toNat ≤ 14) → t = { s with err := t.err, faultBit := true })

/-- 10_state.md R33: `STATUS.FAULT` is set by a command whose outcome is of the fault class and is cleared by no command
but `RESET`. -/
def Obligations.FaultBitIsSticky : Prop :=
  ∀ (i : Instr) (s t : State), exec i s = .next t →
    (i ≠ .reset → t.faultBit = (s.faultBit || decide (12 ≤ t.err.toNat))) ∧ (i = .reset → t.faultBit = false)

/-- 47_system.md R220, R222: `NOP` does nothing but `STATUS.ERR <- 0`; `TOUCH` gives the counter's value in `A` and then
increments it modulo 64. -/
def Obligations.NopAndTouchResults : Prop :=
  encode .nop = 0x0000000000000000#64 ∧ encode .touch = wordN 0x02#8 ∧
  ∀ s : State, exec .nop s = .next { s with err := 0#4 } ∧
    exec .touch s =
      .next { s with a := s.seq.setWidth 32, seq := BitVec.ofNat 6 ((s.seq.toNat + 1) % 64), err := 0#4 }

/-- 47_system.md R222: the counter over any number of `TOUCH` commands; 64 of them bring it back. -/
def Obligations.TouchCountsModulo64 : Prop :=
  ∀ (n : Nat) (s : State), execAll (List.replicate (n + 1) .touch) s =
    .next { s with a := BitVec.ofNat 32 ((s.seq.toNat + n) % 64)
                   seq := BitVec.ofNat 6 ((s.seq.toNat + n + 1) % 64), err := 0#4 }

/-- 10_state.md R45, 47_system.md R221: the state after reset and after the command `RESET`. That a reset leaves the
parameters and what the host has presented is about the model's own fields (log entries 1 and 2). -/
def Obligations.ResetGivesTheResetValues : Prop :=
  (∀ s : State, ∃ t, exec .reset s = .next t ∧ AfterReset s t) ∧
  AfterReset State.reset State.reset ∧ State.reset.crc = State.reset.params.crcInit ∧
  hostRead 0#2 12#16 State.reset = 0x52363401#32 ∧ ∀ i : BitVec 16, hostRead 1#2 i State.reset = 0#32

/-- 46_buffer_table.md R210, R214: `CLRB` empties the buffer; `TABW` stores one whole entry and touches no other. -/
def Obligations.ClrbAndTabwResults : Prop :=
  encode .clrb = wordN 0x08#8 ∧ (∀ s : State, exec .clrb s = .next { s with len := 0#16, pos := 0#16, err := 0#4 }) ∧
  ∀ (rc : BitVec 4) (idx : BitVec 6) (addr : BitVec 12) (v : BitVec 32) (s : State),
    encode (.tabw rc idx addr v) = wordT 0x0C#8 rc idx addr v ∧
    ∃ t, exec (.tabw rc idx addr v) s = .next t ∧ t = { s with tab := t.tab, err := 0#4 } ∧
      ∀ e : Fin 64, t.tab[e] = if e.val = idx.toNat then ⟨addr, v, rc⟩ else s.tab[e]

/-- 46_buffer_table.md R211: `SETPOS` over every operand. -/
def Obligations.SetposResult : Prop :=
  ∀ (x4 : BitVec 4) (imm : BitVec 32) (s : State), encode (.setpos x4 imm) = wordV 0x09#8 x4 imm ∧
    (x4 ≠ 0#4 ∨ 2 ^ 16 ≤ imm.toNat →
      exec (.setpos x4 imm) s = .next { s with err := 13#4, faultBit := true }) ∧
    (x4 = 0#4 → imm.toNat < 2 ^ 16 → s.len.toNat < imm.toNat →
      exec (.setpos x4 imm) s = .next { s with err := 14#4, faultBit := true }) ∧
    (x4 = 0#4 → imm.toNat ≤ s.len.toNat →
      exec (.setpos x4 imm) s = .next { s with pos := BitVec.ofNat 16 imm.toNat, err := 0#4 })

/-- 46_buffer_table.md R212: `PUTB` over every operand. -/
def Obligations.PutbResult : Prop :=
  ∀ (x4 : BitVec 4) (imm : BitVec 32) (s : State), encode (.putb x4 imm) = wordV 0x0A#8 x4 imm ∧
    (x4 ≠ 0#4 ∨ 2 ^ 8 ≤ imm.toNat → exec (.putb x4 imm) s = .next { s with err := 13#4, faultBit := true }) ∧
    (x4 = 0#4 → imm.toNat < 2 ^ 8 → s.params.bufcap.toNat ≤ s.pos.toNat →
      exec (.putb x4 imm) s = .next { s with err := 14#4, faultBit := true }) ∧
    (x4 = 0#4 → imm.toNat < 2 ^ 8 → s.pos.toNat < s.params.bufcap.toNat → s.buf.wf = true →
      ∃ t, exec (.putb x4 imm) s = .next t ∧ StoredAtCursor s t [BitVec.ofNat 8 imm.toNat])

/-- 46_buffer_table.md R213: `GETB` delivers the byte at the cursor raw. -/
def Obligations.GetbResult : Prop :=
  encode .getb = wordN 0x0B#8 ∧ ∀ s : State,
    (s.len.toNat ≤ s.pos.toNat → exec .getb s = .next { s with err := 14#4, faultBit := true }) ∧
    (s.pos.toNat < s.len.toNat →
      exec .getb s = .next { s with a := BitVec.ofNat 32 (s.buf.read s.pos.toNat).toNat
                                    pos := BitVec.ofNat 16 (s.pos.toNat + 1), err := 0#4 })

/-- 41_radix64_codec.md R126: `ENC6`. -/
def Obligations.Enc6Result : Prop :=
  ∀ (x4 : BitVec 4) (imm : BitVec 32) (s : State), encode (.enc6 x4 imm) = wordV 0x10#8 x4 imm ∧
    (64 ≤ imm.toNat ∨ x4 ≠ 0#4 → exec (.enc6 x4 imm) s = .next { s with err := 13#4, faultBit := true }) ∧
    (imm.toNat < 64 → x4 = 0#4 → s.params.bufcap.toNat < s.pos.toNat + 1 →
      exec (.enc6 x4 imm) s = .next { s with err := 14#4, faultBit := true }) ∧
    (imm.toNat < 64 → x4 = 0#4 → s.pos.toNat + 1 ≤ s.params.bufcap.toNat → s.buf.wf = true →
      ∃ t, exec (.enc6 x4 imm) s = .next t ∧ StoredAtCursor s t [sym (imm.extractLsb' 0 6)])

/-- 41_radix64_codec.md R127: `ENC8`. -/
def Obligations.Enc8Result : Prop :=
  ∀ (x4 : BitVec 4) (imm : BitVec 32) (s : State), encode (.enc8 x4 imm) = wordV 0x11#8 x4 imm ∧
    (256 ≤ imm.toNat → exec (.enc8 x4 imm) s = .next { s with err := 13#4, faultBit := true }) ∧
    (imm.toNat < 256 → s.params.bufcap.toNat < s.pos.toNat + 2 →
      exec (.enc8 x4 imm) s = .next { s with err := 14#4, faultBit := true }) ∧
    (imm.toNat < 256 → s.pos.toNat + 2 ≤ s.params.bufcap.toNat → s.buf.wf = true →
      ∃ t, exec (.enc8 x4 imm) s = .next t ∧
        StoredAtCursor s t [sym (x4 ++ imm.extractLsb' 6 2), sym (imm.extractLsb' 0 6)])

/-- 41_radix64_codec.md R128: `ENC12`. -/
def Obligations.Enc12Result : Prop :=
  ∀ (x4 : BitVec 4) (imm : BitVec 32) (s : State), encode (.enc12 x4 imm) = wordV 0x12#8 x4 imm ∧
    (4096 ≤ imm.toNat ∨ x4 ≠ 0#4 → exec (.enc12 x4 imm) s = .next { s with err := 13#4, faultBit := true }) ∧
    (imm.toNat < 4096 → x4 = 0#4 → s.params.bufcap.toNat < s.pos.toNat + 2 →
      exec (.enc12 x4 imm) s = .next { s with err := 14#4, faultBit := true }) ∧
    (imm.toNat < 4096 → x4 = 0#4 → s.pos.toNat + 2 ≤ s.params.bufcap.toNat → s.buf.wf = true →
      ∃ t, exec (.enc12 x4 imm) s = .next t ∧
        StoredAtCursor s t [sym (imm.extractLsb' 6 6), sym (imm.extractLsb' 0 6)])

/-- 41_radix64_codec.md R129: `ENC16`, whose extra bits are two. -/
def Obligations.Enc16Result : Prop :=
  ∀ (x4 : BitVec 4) (imm : BitVec 32) (s : State), encode (.enc16 x4 imm) = wordV 0x13#8 x4 imm ∧
    (65536 ≤ imm.toNat ∨ 4 ≤ x4.toNat → exec (.enc16 x4 imm) s = .next { s with err := 13#4, faultBit := true }) ∧
    (imm.toNat < 65536 → x4.toNat < 4 → s.params.bufcap.toNat < s.pos.toNat + 3 →
      exec (.enc16 x4 imm) s = .next { s with err := 14#4, faultBit := true }) ∧
    (imm.toNat < 65536 → x4.toNat < 4 → s.pos.toNat + 3 ≤ s.params.bufcap.toNat → s.buf.wf = true →
      ∃ t, exec (.enc16 x4 imm) s = .next t ∧
        StoredAtCursor s t [sym (x4.extractLsb' 0 2 ++ imm.extractLsb' 12 4), sym (imm.extractLsb' 6 6),
          sym (imm.extractLsb' 0 6)])

/-- 41_radix64_codec.md R130: `ENC32`, whose operands are all legal. -/
def Obligations.Enc32Result : Prop :=
  ∀ (x4 : BitVec 4) (imm : BitVec 32) (s : State), encode (.enc32 x4 imm) = wordV 0x14#8 x4 imm ∧
    (s.params.bufcap.toNat < s.pos.toNat + 6 →
      exec (.enc32 x4 imm) s = .next { s with err := 14#4, faultBit := true }) ∧
    (s.pos.toNat + 6 ≤ s.params.bufcap.toNat → s.buf.wf = true →
      ∃ t, exec (.enc32 x4 imm) s = .next t ∧
        StoredAtCursor s t [sym (x4 ++ imm.extractLsb' 30 2), sym (imm.extractLsb' 24 6), sym (imm.extractLsb' 18 6),
          sym (imm.extractLsb' 12 6), sym (imm.extractLsb' 6 6), sym (imm.extractLsb' 0 6)])

/-- 41_radix64_codec.md R132: `DEC6`. -/
def Obligations.Dec6Result : Prop :=
  encode .dec6 = wordN 0x18#8 ∧ ∀ s : State,
    (s.len.toNat ≤ s.pos.toNat → exec .dec6 s = .next { s with err := 14#4, faultBit := true }) ∧
    (s.pos.toNat < s.len.toNat →
      exec .dec6 s = .next { s with a := (val (s.buf.read s.pos.toNat)).setWidth 32, x := 0#4
                                    pos := BitVec.ofNat 16 (s.pos.toNat + 1), err := 0#4 })

/-- 41_radix64_codec.md R133: `DEC8`, with `g` the 12-bit concatenation of the two values. -/
def Obligations.Dec8Result : Prop :=
  encode .dec8 = wordN 0x19#8 ∧ ∀ s : State,
    (s.len.toNat < s.pos.toNat + 2 → exec .dec8 s = .next { s with err := 14#4, faultBit := true }) ∧
    (s.pos.toNat + 2 ≤ s.len.toNat →
      ∀ g : BitVec (6 + 6), g = val (s.buf.read s.pos.toNat) ++ val (s.buf.read (s.pos.toNat + 1)) →
      exec .dec8 s = .next { s with a := (g.extractLsb' 0 8).setWidth 32, x := g.extractLsb' 8 4
                                    pos := BitVec.ofNat 16 (s.pos.toNat + 2), err := 0#4 })

/-- 41_radix64_codec.md R134: `DEC12`, which clears `X`. -/
def Obligations.Dec12Result : Prop :=
  encode .dec12 = wordN 0x1A#8 ∧ ∀ s : State,
    (s.len.toNat < s.pos.toNat + 2 → exec .dec12 s = .next { s with err := 14#4, faultBit := true }) ∧
    (s.pos.toNat + 2 ≤ s.len.toNat →
      ∀ g : BitVec (6 + 6), g = val (s.buf.read s.pos.toNat) ++ val (s.buf.read (s.pos.toNat + 1)) →
      exec .dec12 s = .next { s with a := (g.extractLsb' 0 12).setWidth 32, x := 0#4
                                     pos := BitVec.ofNat 16 (s.pos.toNat + 2), err := 0#4 })

/-- 41_radix64_codec.md R135: `DEC16`, with `g` the 18-bit concatenation; `X` gets two bits, zero-extended. -/
def Obligations.Dec16Result : Prop :=
  encode .dec16 = wordN 0x1B#8 ∧ ∀ s : State,
    (s.len.toNat < s.pos.toNat + 3 → exec .dec16 s = .next { s with err := 14#4, faultBit := true }) ∧
    (s.pos.toNat + 3 ≤ s.len.toNat →
      ∀ g : BitVec (6 + 6 + 6), g = val (s.buf.read s.pos.toNat) ++ val (s.buf.read (s.pos.toNat + 1)) ++
        val (s.buf.read (s.pos.toNat + 2)) →
      exec .dec16 s = .next { s with a := (g.extractLsb' 0 16).setWidth 32, x := (g.extractLsb' 16 2).setWidth 4
                                     pos := BitVec.ofNat 16 (s.pos.toNat + 3), err := 0#4 })

/-- 41_radix64_codec.md R136: `DEC32`, with `g` the 36-bit concatenation. -/
def Obligations.Dec32Result : Prop :=
  encode .dec32 = wordN 0x1C#8 ∧ ∀ s : State,
    (s.len.toNat < s.pos.toNat + 6 → exec .dec32 s = .next { s with err := 14#4, faultBit := true }) ∧
    (s.pos.toNat + 6 ≤ s.len.toNat →
      ∀ g : BitVec (6 + 6 + 6 + 6 + 6 + 6), g = val (s.buf.read s.pos.toNat) ++
        val (s.buf.read (s.pos.toNat + 1)) ++ val (s.buf.read (s.pos.toNat + 2)) ++ val (s.buf.read (s.pos.toNat + 3)) ++
        val (s.buf.read (s.pos.toNat + 4)) ++ val (s.buf.read (s.pos.toNat + 5)) →
      exec .dec32 s = .next { s with a := g.extractLsb' 0 32, x := g.extractLsb' 32 4
                                     pos := BitVec.ofNat 16 (s.pos.toNat + 6), err := 0#4 })

/-- 20_memory.md R63: a group decoded at another width than it was encoded at. `DEC12` over an 8-bit group gives the extra
bits above the value; `DEC8` over an address gives the low 8 bits in `A` and the high 4 in `X`. -/
def Obligations.MixedWidthDecodes : Prop :=
  (∀ (v : BitVec 8) (x : BitVec 4) (s : State), s.pos.toNat + 2 ≤ s.len.toNat →
    s.buf.readBytes s.pos.toNat 2 = pack .w8 (v.setWidth 32) x →
    ∃ t, exec .dec12 s = .next t ∧ t.a = (x ++ v).setWidth 32 ∧ t.err = 0#4) ∧
  ∀ (addr : BitVec 12) (s : State), s.pos.toNat + 2 ≤ s.len.toNat →
    s.buf.readBytes s.pos.toNat 2 = pack .w12 (addr.setWidth 32) 0#4 →
    ∃ t, exec .dec8 s = .next t ∧ t.a = (addr.extractLsb' 0 8).setWidth 32 ∧ t.x = addr.extractLsb' 8 4 ∧ t.err = 0#4

/-- 41_radix64_codec.md R138 (1): an encode, `SETPOS` back to the old cursor and a decode at the same width give the value
in `A`, the extra bits in `X`, and the cursor where the encode left it. -/
def Obligations.EncodeThenDecodeGivesTheValueBack : Prop :=
  ∀ (c : CodecWidth) (x4 : BitVec 4) (imm : BitVec 32) (s : State),
    imm.toNat < 2 ^ c.bits → x4.toNat < 2 ^ c.xbits → s.pos.toNat + c.nsym ≤ s.params.bufcap.toNat → s.buf.wf = true →
    ∃ t, execAll [encCommand c x4 imm, .setpos 0#4 (s.pos.setWidth 32), decCommand c] s = .next t ∧
      t.a = imm ∧ t.x = x4 ∧ t.pos.toNat = s.pos.toNat + c.nsym ∧ t.err = 0#4 ∧ t.faultBit = s.faultBit

/-- 41_radix64_codec.md R137: `unpack` undoes `pack`; `pack` undoes `unpack` exactly on the bytes of the alphabet. -/
def Obligations.PackAndUnpackRoundTrip : Prop :=
  (∀ (c : CodecWidth) (v : BitVec 32) (x : BitVec 4), v.toNat < 2 ^ c.bits → x.toNat < 2 ^ c.xbits →
    unpack c (pack c v x) = (v, x)) ∧
  ∀ (c : CodecWidth) (bs : List Byte), bs.length = c.nsym →
    (pack c (unpack c bs).1 (unpack c bs).2 = bs ↔ ∀ b ∈ bs, isSymbol b = true)

/-- 41_radix64_codec.md R120, R121: the alphabet in its fixed order, and the inverse of `sym`. -/
def Obligations.AlphabetAndItsInverse : Prop :=
  (∀ v : Six, v.toNat < 10 → sym v = BitVec.ofNat 8 (0x30 + v.toNat)) ∧
  (∀ v : Six, 10 ≤ v.toNat → v.toNat < 36 → sym v = BitVec.ofNat 8 (0x61 + (v.toNat - 10))) ∧
  (∀ v : Six, 36 ≤ v.toNat → v.toNat < 62 → sym v = BitVec.ofNat 8 (0x41 + (v.toNat - 36))) ∧
  sym 62#6 = 0x2B#8 ∧ sym 63#6 = 0x2D#8 ∧ (∀ v : Six, val (sym v) = v) ∧
  ∀ b : Byte, sym (val b) = if isSymbol b then b else 0x30#8

/-- 42_checksum.md R141: `CKSUM`; the checksum is the sum of the byte values over `[S, E)` modulo 64 (R140). -/
def Obligations.CksumResult : Prop :=
  ∀ (lo hi : BitVec 16) (s : State), encode (.cksum lo hi) = wordG 0x20#8 lo hi ∧
    (¬ (lo.toNat ≤ hi.toNat ∧ hi.toNat ≤ s.len.toNat) →
      exec (.cksum lo hi) s = .next { s with err := 14#4, faultBit := true }) ∧
    (lo.toNat ≤ hi.toNat → hi.toNat ≤ s.len.toNat →
      exec (.cksum lo hi) s =
        .next { s with ck := BitVec.ofNat 6 (∑ j ∈ Finset.Ico lo.toNat hi.toNat, (s.buf.read j).toNat), err := 0#4 })

/-- 42_checksum.md R142: `CKAPP`. -/
def Obligations.CkappResult : Prop :=
  ∀ (lo e : BitVec 16) (s : State), encode (.ckapp lo e) = wordG 0x21#8 lo e ∧
    (e ≠ 0#16 → exec (.ckapp lo e) s = .next { s with err := 13#4, faultBit := true }) ∧
    (e = 0#16 → s.pos.toNat < lo.toNat ∨ s.params.bufcap.toNat ≤ s.pos.toNat →
      exec (.ckapp lo e) s = .next { s with err := 14#4, faultBit := true }) ∧
    (e = 0#16 → lo.toNat ≤ s.pos.toNat → s.pos.toNat < s.params.bufcap.toNat → s.buf.wf = true →
      ∀ c, c = BitVec.ofNat 6 (∑ j ∈ Finset.Ico lo.toNat s.pos.toNat, (s.buf.read j).toNat) →
      ∃ t, exec (.ckapp lo e) s = .next t ∧ StoredAtCursor { s with ck := c } t [sym c])

/-- 42_checksum.md R143: `CKVFY`, which writes `CK` also when the comparison fails. -/
def Obligations.CkvfyResult : Prop :=
  ∀ (lo hi : BitVec 16) (s : State), encode (.ckvfy lo hi) = wordG 0x22#8 lo hi ∧
    (¬ (lo.toNat ≤ hi.toNat ∧ hi.toNat < s.len.toNat) →
      exec (.ckvfy lo hi) s = .next { s with err := 14#4, faultBit := true }) ∧
    (lo.toNat ≤ hi.toNat → hi.toNat < s.len.toNat →
      ∀ c, c = BitVec.ofNat 6 (∑ j ∈ Finset.Ico lo.toNat hi.toNat, (s.buf.read j).toNat) →
      exec (.ckvfy lo hi) s =
        .next { s with ck := c, err := if s.buf.read hi.toNat = sym c then 0#4 else 2#4 })

/-- 42_checksum.md R145 (1): the symbol `CKAPP` appends passes `CKVFY` over its range. -/
def Obligations.AppendedChecksumVerifies : Prop :=
  ∀ (lo : BitVec 16) (s : State), lo.toNat ≤ s.pos.toNat → s.pos.toNat < s.params.bufcap.toNat → s.buf.wf = true →
    ∃ t u, exec (.ckapp lo 0#16) s = .next t ∧ exec (.ckvfy lo s.pos) t = .next u ∧ u.err = 0#4 ∧ u.ck = t.ck

/-- 42_checksum.md R145 (2), (3): changing one summed byte goes undetected exactly when the change is a multiple of 64,
and a reordering of the summed bytes always. -/
def Obligations.WhatTheChecksumDetects : Prop :=
  (∀ (l r : List Byte) (b b' : Byte),
    cksum (l ++ b :: r) = cksum (l ++ b' :: r) ↔ (64 : Int) ∣ (b'.toNat : Int) - (b.toNat : Int)) ∧
  ∀ l l' : List Byte, l.Perm l' → cksum l = cksum l'

/-- 43_frame.md R155 with the offsets of 20_memory.md R69: the frame `ASMRD` builds, byte for byte. That every byte at and
above the frame length is kept is the model's choice, which U4 leaves open (log entry 4, DESIGN CHOICE). -/
def Obligations.AsmrdResult : Prop :=
  ∀ (w : BitVec 2) (seq count : BitVec 6) (s : State), encode (.asmrd w seq count) = wordF 0x40#8 w seq count ∧
    (w = 3#2 → exec (.asmrd w seq count) s = .next { s with err := 13#4, faultBit := true }) ∧
    (∀ fw n, FrameWidth.ofField w = some fw → n = 7 + 2 * count.toNat →
      (s.params.bufcap.toNat < n → exec (.asmrd w seq count) s = .next { s with err := 14#4, faultBit := true }) ∧
      (n ≤ s.params.bufcap.toNat → s.buf.wf = true →
        ∃ t, exec (.asmrd w seq count) s = .next t ∧
          t = { s with buf := t.buf, len := BitVec.ofNat 16 n, pos := BitVec.ofNat 16 n, err := 0#4 } ∧
          t.buf.readBytes 0 5 = [0x24#8, 0x52#8, fw.char, sym seq, sym count] ∧
          (∀ e : Fin 64, e.val < count.toNat →
            t.buf.readBytes (5 + 2 * e.val) 2 =
              [sym (s.tab[e].addr.extractLsb' 6 6), sym (s.tab[e].addr.extractLsb' 0 6)]) ∧
          t.buf.read (n - 2) = sym (BitVec.ofNat 6 (∑ j ∈ Finset.Ico 3 (n - 2), (t.buf.read j).toNat)) ∧
          t.buf.read (n - 1) = 0x3F#8 ∧ ∀ j, n ≤ j → t.buf.read j = s.buf.read j))

/-- 43_frame.md R156 with the offsets of 20_memory.md R69: the frame `ASMWR` builds, byte for byte; a value that does not
fit the declared width is refused. That every byte at and above the frame length is kept is the model's choice, which U4
leaves open (log entry 4, DESIGN CHOICE). -/
def Obligations.AsmwrResult : Prop :=
  ∀ (w : BitVec 2) (seq count : BitVec 6) (s : State), encode (.asmwr w seq count) = wordF 0x41#8 w seq count ∧
    (w = 3#2 → exec (.asmwr w seq count) s = .next { s with err := 13#4, faultBit := true }) ∧
    (∀ fw k n, FrameWidth.ofField w = some fw → k = fw.codec.nsym → n = 7 + count.toNat * (2 + k) →
      ((∃ e : Fin 64, e.val < count.toNat ∧ 2 ^ (8 * fw.bytes) ≤ s.tab[e].val.toNat) →
        exec (.asmwr w seq count) s = .next { s with err := 13#4, faultBit := true }) ∧
      ((∀ e : Fin 64, e.val < count.toNat → s.tab[e].val.toNat < 2 ^ (8 * fw.bytes)) →
        (s.params.bufcap.toNat < n → exec (.asmwr w seq count) s = .next { s with err := 14#4, faultBit := true }) ∧
        (n ≤ s.params.bufcap.toNat → s.buf.wf = true →
          ∃ t, exec (.asmwr w seq count) s = .next t ∧
            t = { s with buf := t.buf, len := BitVec.ofNat 16 n, pos := BitVec.ofNat 16 n, err := 0#4 } ∧
            t.buf.readBytes 0 5 = [0x24#8, 0x57#8, fw.char, sym seq, sym count] ∧
            (∀ e : Fin 64, e.val < count.toNat →
              t.buf.readBytes (5 + (2 + k) * e.val) (2 + k) =
                [sym (s.tab[e].addr.extractLsb' 6 6), sym (s.tab[e].addr.extractLsb' 0 6)] ++
                  pack fw.codec s.tab[e].val 0#4) ∧
            t.buf.read (n - 2) = sym (BitVec.ofNat 6 (∑ j ∈ Finset.Ico 3 (n - 2), (t.buf.read j).toNat)) ∧
            t.buf.read (n - 1) = 0x3F#8 ∧ ∀ j, n ≤ j → t.buf.read j = s.buf.read j)))

/-- 43_frame.md R157: every frame an assemble command builds passes `CKVFY 3, n−2`, starts with `$`, ends with `?`, and has
only alphabet bytes at offsets 3 to `n−2`. -/
def Obligations.AssembledFramesVerify : Prop :=
  ∀ (i : Instr) (w : BitVec 2) (seq count : BitVec 6) (s t : State),
    i = .asmrd w seq count ∨ i = .asmwr w seq count → s.buf.wf = true → exec i s = .next t → t.err = 0#4 →
    (∃ u, exec (.ckvfy 3#16 (t.len - 2#16)) t = .next u ∧ u.err = 0#4) ∧
    t.buf.read 0 = 0x24#8 ∧ t.buf.read (t.len.toNat - 1) = 0x3F#8 ∧
    ∀ j, 3 ≤ j → j ≤ t.len.toNat - 2 → isSymbol (t.buf.read j) = true

/-- 43_frame.md R160 with 60_exceptions.md R241: the outcome of a parse, check by check in the spec's order, and that a
parse that fails changes `STATUS.ERR` only. -/
def Obligations.ParseOutcomesInOrder : Prop :=
  ∀ (op : FrameOp) (s : State) (n k need : Nat), n = s.len.toNat →
    k = (if s.buf.read 2 = 0x31#8 then 2 else if s.buf.read 2 = 0x32#8 then 3 else 6) →
    need = 7 + (val (s.buf.read 5)).toNat * k →
    ∃ t, exec (parseCommand op) s = .next t ∧ (t.err ≠ 0#4 → t = { s with err := t.err }) ∧
      t.err =
        if n < 7 then 1#4
        else if s.buf.read (n - 1) ≠ sym (BitVec.ofNat 6 (∑ j ∈ Finset.Ico 4 (n - 1), (s.buf.read j).toNat)) then 2#4
        else if s.buf.read 0 ≠ 0x24#8 ∨ s.buf.read 3 ≠ 0x3D#8 then 3#4
        else if s.buf.read 1 ≠ op.char then 4#4
        else if s.buf.read 2 ≠ 0x31#8 ∧ s.buf.read 2 ≠ 0x32#8 ∧ s.buf.read 2 ≠ 0x34#8 then 5#4
        else if n < need then 6#4
        else if need < n then 7#4
        else 0#4

/-- 43_frame.md R161: `PARSERD` on a read response. -/
def Obligations.ParserdResult : Prop :=
  ∀ (s : State) (w : FrameWidth) (seq count : Six), HoldsResponse .read s w seq count →
    ∃ t, exec .parserd s = .next t ∧
      t = { s with tab := t.tab, fop := 0x52#8, fwidth := BitVec.ofNat 3 w.bytes, fseq := seq, fcount := count,
                   err := 0#4 } ∧
      ∀ e : Fin 64, t.tab[e] =
        if e.val < count.toNat then
          { addr := s.tab[e].addr
            val := (unpack w.codec (s.buf.readBytes (6 + e.val * w.codec.nsym) w.codec.nsym)).1
            rc := (unpack w.codec (s.buf.readBytes (6 + e.val * w.codec.nsym) w.codec.nsym)).2 }
        else s.tab[e]

/-- 43_frame.md R162: `PARSEWR` on a write response; `VAL` is not written. -/
def Obligations.ParsewrResult : Prop :=
  ∀ (s : State) (w : FrameWidth) (seq count : Six), HoldsResponse .write s w seq count →
    ∃ t, exec .parsewr s = .next t ∧
      t = { s with tab := t.tab, fop := 0x57#8, fwidth := BitVec.ofNat 3 w.bytes, fseq := seq, fcount := count,
                   err := 0#4 } ∧
      ∀ e : Fin 64, t.tab[e] =
        if e.val < count.toNat then
          { addr := s.tab[e].addr
            val := s.tab[e].val
            rc := (unpack w.codec (s.buf.readBytes (6 + e.val * w.codec.nsym) w.codec.nsym)).2 }
        else s.tab[e]

/-- 43_frame.md R165: a response built from values and return codes, loaded byte by byte and parsed, gives exactly those
arrays back, at every width, with every count and sequence number. -/
def Obligations.ResponsesParseBack : Prop :=
  ∀ (op : FrameOp) (w : FrameWidth) (seq : Six) (es : List (BitVec 32 × BitVec 4)) (s : State),
    s.params.wf = true → s.buf.wf = true → es.length ≤ 63 →
    (∀ e ∈ es, e.1.toNat < 2 ^ w.codec.bits ∧ e.2.toNat < 2 ^ w.codec.xbits) →
    ∃ t, execAll (loadFrame (responseFrame op w seq es) ++ [parseCommand op]) s = .next t ∧
      t.err = 0#4 ∧ t.fop = op.char ∧ t.fwidth.toNat = w.bytes ∧ t.fseq = seq ∧ t.fcount.toNat = es.length ∧
      ∀ e : Fin 64, ∀ h : e.val < es.length,
        t.tab[e].rc = (es[e.val]).2 ∧ (op = .read → t.tab[e].val = (es[e.val]).1)

/-- 44_crc32.md R183, R187, R188: `CRCINIT`, `CRCFIN` and `CRCVFY`, with the parameters of the state. -/
def Obligations.CrcinitCrcfinCrcvfyResults : Prop :=
  encode .crcinit = wordN 0x30#8 ∧ encode .crcfin = wordN 0x34#8 ∧
  ∀ s : State, exec .crcinit s = .next { s with crc := s.params.crcInit, err := 0#4 } ∧
    exec .crcfin s = .next { s with a := s.crc ^^^ s.params.crcXorOut, err := 0#4 } ∧
    ∀ (x4 : BitVec 4) (imm : BitVec 32), encode (.crcvfy x4 imm) = wordV 0x35#8 x4 imm ∧
      (x4 ≠ 0#4 → exec (.crcvfy x4 imm) s = .next { s with err := 13#4, faultBit := true }) ∧
      (x4 = 0#4 → exec (.crcvfy x4 imm) s =
        .next { s with err := if s.crc ^^^ s.params.crcXorOut = imm then 0#4 else 8#4 })

/-- 44_crc32.md R181: `crc_step` is an XOR with the byte and eight times one shift, with `CRC_POLY` XORed in when the bit
shifted out is 1, for every polynomial, register and byte. R184, R185: `CRCUPDB` feeds one byte; `CRCUPDW` feeds four, least
significant first. R182: `crc32` of a list under every parameter record, and its values under the default numbers, which it
names. -/
def Obligations.CrcupdbCrcupdwResults : Prop :=
  (∀ (poly c : BitVec 32) (b : Byte),
    crcStep poly c b =
      (fun v : BitVec 32 => if v.getLsbD 0 = true then (v >>> 1) ^^^ poly else v >>> 1)^[8] (c ^^^ b.setWidth 32)) ∧
  (∀ (p : Params) (bs : List Byte), crc32 p bs = bs.foldl (crcStep p.crcPoly) p.crcInit ^^^ p.crcXorOut) ∧
  (∀ p : Params, p.crcPoly = 0xEDB88320#32 → p.crcInit = 0xFFFFFFFF#32 → p.crcXorOut = 0xFFFFFFFF#32 →
    crc32 p [0x31#8, 0x32#8, 0x33#8, 0x34#8, 0x35#8, 0x36#8, 0x37#8, 0x38#8, 0x39#8] = 0xCBF43926#32 ∧
    crc32 p [0x61#8] = 0xE8B7BE43#32 ∧ crc32 p [] = 0x00000000#32) ∧
  ∀ (x4 : BitVec 4) (imm : BitVec 32) (s : State), encode (.crcupdb x4 imm) = wordV 0x31#8 x4 imm ∧
    encode (.crcupdw x4 imm) = wordV 0x32#8 x4 imm ∧
    (x4 ≠ 0#4 ∨ 256 ≤ imm.toNat → exec (.crcupdb x4 imm) s = .next { s with err := 13#4, faultBit := true }) ∧
    (x4 = 0#4 → imm.toNat < 256 → exec (.crcupdb x4 imm) s =
      .next { s with crc := crcStep s.params.crcPoly s.crc (BitVec.ofNat 8 imm.toNat), err := 0#4 }) ∧
    (x4 ≠ 0#4 → exec (.crcupdw x4 imm) s = .next { s with err := 13#4, faultBit := true }) ∧
    (x4 = 0#4 → ∀ p, p = s.params.crcPoly → exec (.crcupdw x4 imm) s =
      .next { s with crc := crcStep p (crcStep p (crcStep p (crcStep p s.crc (imm.extractLsb' 0 8))
                (imm.extractLsb' 8 8)) (imm.extractLsb' 16 8)) (imm.extractLsb' 24 8), err := 0#4 })

/-- 44_crc32.md R186: `CRCUPDR` feeds the bytes of a range, which leaves what feeding them one by one with `CRCUPDB`
leaves. -/
def Obligations.CrcupdrResult : Prop :=
  ∀ (lo hi : BitVec 16) (s : State), encode (.crcupdr lo hi) = wordG 0x33#8 lo hi ∧
    (¬ (lo.toNat ≤ hi.toNat ∧ hi.toNat ≤ s.len.toNat) →
      exec (.crcupdr lo hi) s = .next { s with err := 14#4, faultBit := true }) ∧
    (lo.toNat ≤ hi.toNat → hi.toNat ≤ s.len.toNat →
      ∃ t, exec (.crcupdr lo hi) s = .next t ∧
        execAll (feedBytes (s.buf.readBytes lo.toNat (hi.toNat - lo.toNat))) s =
          .next { t with err := if lo = hi then s.err else 0#4 } ∧
        t = { s with crc := t.crc, err := 0#4 } ∧ (lo = hi → t.crc = s.crc))

/-- 44_crc32.md R189 (2): feeding a range in two parts, split anywhere, equals feeding it in one. -/
def Obligations.CrcOfASplitRange : Prop :=
  ∀ (lo mid hi : BitVec 16) (s : State), lo.toNat ≤ mid.toNat → mid.toNat ≤ hi.toNat → hi.toNat ≤ s.len.toNat →
    ∃ t, exec (.crcupdr lo hi) s = .next t ∧ execAll [.crcupdr lo mid, .crcupdr mid hi] s = .next t

/-- 44_crc32.md R189 (3), under the default parameters, which it names: feeding the finalised CRC as a little-endian word
always leaves the same residue, and `CRCFIN` then the same value. -/
def Obligations.CrcResidue : Prop :=
  ∀ s : State, s.params.crcPoly = 0xEDB88320#32 → s.params.crcXorOut = 0xFFFFFFFF#32 →
    ∃ t u, exec .crcfin s = .next t ∧ exec (.crcupdw 0#4 t.a) t = .next u ∧ u.crc = 0xDEBB20E3#32 ∧
      u.err = 0#4 ∧ ∃ v, exec .crcfin u = .next v ∧ v.a = 0x2144DF1C#32

/-- 10_state.md R41, R35: what the read port answers, space by space. -/
def Obligations.ReadPortValues : Prop :=
  ∀ s : State,
    (hostRead 0#2 0#16 s = s.a ∧ hostRead 0#2 1#16 s = s.x.setWidth 32 ∧ hostRead 0#2 2#16 s = s.pos.setWidth 32 ∧
     hostRead 0#2 3#16 s = s.len.setWidth 32 ∧ hostRead 0#2 4#16 s = s.ck.setWidth 32 ∧ hostRead 0#2 5#16 s = s.crc ∧
     hostRead 0#2 6#16 s = s.seq.setWidth 32 ∧
     hostRead 0#2 7#16 s = BitVec.ofNat 32 (s.err.toNat + if s.faultBit then 16 else 0) ∧
     hostRead 0#2 8#16 s = s.fop.setWidth 32 ∧ hostRead 0#2 9#16 s = s.fwidth.setWidth 32 ∧
     hostRead 0#2 10#16 s = s.fseq.setWidth 32 ∧ hostRead 0#2 11#16 s = s.fcount.setWidth 32 ∧
     hostRead 0#2 12#16 s = 0x52363401#32 ∧ ∀ n : BitVec 16, 13 ≤ n.toNat → hostRead 0#2 n s = 0#32) ∧
    (∀ i : BitVec 16, hostRead 1#2 i s =
      if i.toNat < s.len.toNat then (s.buf.read i.toNat).setWidth 32 else 0#32) ∧
    (∀ e : Fin 64, hostRead 2#2 (BitVec.ofNat 16 e.val) s = s.tab[e].addr.setWidth 32 ∧
      hostRead 2#2 (BitVec.ofNat 16 (0x40 + e.val)) s = s.tab[e].val ∧
      hostRead 2#2 (BitVec.ofNat 16 (0x80 + e.val)) s = s.tab[e].rc.setWidth 32) ∧
    (∀ i : BitVec 16, 0xC0 ≤ i.toNat → hostRead 2#2 i s = 0#32) ∧ ∀ i : BitVec 16, hostRead 3#2 i s = 0#32

/-- 45_handshake_sequences.md R196 to R198: under each of the four readings of `NIB_ORDER` and `ROT_DIR` the expanded buffer
is 8 blocks of 16 bytes, byte for byte as R197 says, and the sequence leaves its CRC-32 in `A`. R200 to R202: for every
password from 100 to 999, written `100h + 10t + u`, a round is the three digits and the four salt bytes in the order of the
reading of `PW_INTERLEAVE` (the two that R201 names, or any other order given as a list of places), and the sequence leaves
the CRC-32 of ten rounds in `A`. It holds for every CRC parameter record. -/
def Obligations.HandshakeSequencesComputeTheCrc : Prop :=
  (∀ (order : NibOrder) (dir : RotDir) (challenge : Word) (key : Vector Byte 16) (s : State),
    s.params.wf = true → s.buf.wf = true →
    ∃ bytes : List Byte, bytes.length = 128 ∧
      (∀ (j : Fin 8) (i : Fin 16) (r : Nat),
        r = (match order with
             | .lsnFirst => challenge.extractLsb' (4 * j.val) 4
             | .msnFirst => challenge.extractLsb' (28 - 4 * j.val) 4).toNat →
        (dir = .startAt → bytes[16 * j.val + i.val]? = key[(i.val + r) % 16]?) ∧
        (dir = .placeAt → bytes[16 * j.val + (i.val + r) % 16]? = key[i.val]?)) ∧
      encryptChallenge order dir challenge key =
        .clrb :: putBytes bytes ++ [.crcinit, .crcupdr 0#16 128#16, .crcfin] ∧
      ∃ t, execAll (encryptChallenge order dir challenge key) s = .next t ∧ t.a = crc32 s.params bytes) ∧
  ∀ (h t u : Nat) (salt : Word) (s : State), 1 ≤ h → h ≤ 9 → t ≤ 9 → u ≤ 9 →
    ∀ (password : Nat) (d0 d1 d2 s0 s1 s2 s3 : Byte), password = 100 * h + 10 * t + u →
      d0 = BitVec.ofNat 8 (0x30 + h) → d1 = BitVec.ofNat 8 (0x30 + t) → d2 = BitVec.ofNat 8 (0x30 + u) →
      s0 = salt.extractLsb' 0 8 → s1 = salt.extractLsb' 8 8 → s2 = salt.extractLsb' 16 8 → s3 = salt.extractLsb' 24 8 →
      encryptPassword .block password salt =
        .crcinit :: (List.replicate 10 [.crcupdb 0#4 (d0.setWidth 32), .crcupdb 0#4 (d1.setWidth 32),
          .crcupdb 0#4 (d2.setWidth 32), .crcupdw 0#4 salt]).flatten ++ [.crcfin] ∧
      ∀ (reading : Interleave) (round : List Byte),
        round = (match reading with
                 | .block => [d0, d1, d2, s0, s1, s2, s3]
                 | .alternate => [d0, s0, d1, s1, d2, s2, s3]
                 | .other order => order.toList.map fun k => (#v[d0, d1, d2, s0, s1, s2, s3] : Vector Byte 7)[k]) →
        ∃ t', execAll (encryptPassword reading password salt) s = .next t' ∧
          t'.a = crc32 s.params (List.replicate 10 round).flatten
end

