-- ==== Sys2Proof/Laws/Codec.lean ====
section
/-! SUPPORT. The laws of the codec: the alphabet, the digits of a group, and the number that a group makes. -/

namespace Sys2Proof.Machine

@[simp] theorem val_sym (v : Six) : val (sym v) = v := by
  revert v
  decide

@[simp] theorem isSymbol_sym (v : Six) : isSymbol (sym v) = true := by
  revert v
  decide

theorem length_symbols : ∀ (n g : Nat), (symbols n g).length = n
  | 0, _ => rfl
  | n + 1, g => by simp [symbols, length_symbols n g]

@[simp] theorem length_pack (c : CodecWidth) (v : BitVec 32) (x : BitVec 4) : (pack c v x).length = c.nsym :=
  length_symbols _ _

theorem isSymbol_of_mem_symbols : ∀ (n g : Nat) (b : Byte), b ∈ symbols n g → isSymbol b = true
  | 0, _, _, h => by simp [symbols] at h
  | n + 1, g, b, h => by
    rcases List.mem_cons.1 h with rfl | h
    · exact isSymbol_sym _
    · exact isSymbol_of_mem_symbols n g b h

theorem foldl_symbols (n : Nat) : ∀ (acc g : Nat),
    (symbols n g).foldl (fun g b => g * 64 + (val b).toNat) acc = acc * 64 ^ n + g % 64 ^ n := by
  induction n with
  | zero => intro acc g; simp [symbols, Nat.mod_one]
  | succ n ih =>
    intro acc g
    simp only [symbols, List.foldl_cons, val_sym, ih, BitVec.toNat_ofNat, Nat.shiftRight_eq_div_pow]
    rw [show 2 ^ (6 * n) = 64 ^ n by rw [Nat.pow_mul], show (2 : Nat) ^ 6 = 64 by rfl, Nat.pow_succ, Nat.mod_mul]
    ring

/-- The symbols of a number make that number again, modulo the group's range. -/
theorem symbolsValue_symbols (n g : Nat) : symbolsValue (symbols n g) = g % 64 ^ n := by
  simp [symbolsValue, foldl_symbols]

theorem foldl_val_append (bs : List Byte) (b : Byte) :
    symbolsValue (bs ++ [b]) = symbolsValue bs * 64 + (val b).toNat := by
  simp [symbolsValue]

/-- The number of a group of `n` symbols has `6n` bits. -/
theorem symbolsValue_lt (bs : List Byte) : symbolsValue bs < 64 ^ bs.length := by
  induction bs using List.reverseRecOn with
  | nil => simp [symbolsValue]
  | append_singleton bs b ih =>
    rw [foldl_val_append, List.length_append, List.length_singleton, Nat.pow_succ]
    have := (val b).isLt
    omega

end Sys2Proof.Machine
end

