-- ==== Sys2Proof/Laws/Decode.lean ====
section
/-! SUPPORT. The fields of the words that the encoder builds: every field reads back, every reserved field is 0. -/

namespace Sys2Proof

/-- Bit `j` of a placed field. -/
theorem getLsbD_place {n : Nat} (field : BitVec n) (lo j : Nat) (hj : j < 64) :
    (place field lo).getLsbD j = (decide (lo ≤ j) && field.getLsbD (j - lo)) := by
  simp only [place, BitVec.getLsbD_shiftLeft, BitVec.getLsbD_setWidth]
  by_cases h : j < lo
  · simp [h]
  · simp [h, hj, show lo ≤ j by omega, show j - lo < 64 by omega]

/-- Two bit vectors are equal when they agree below their width; the form the field lemmas below are proved in. -/
theorem extract_eq {n : Nat} (c : CmdWord) (lo : Nat) (v : BitVec n)
    (h : ∀ i, i < n → c.getLsbD (lo + i) = v.getLsbD i) : c.extractLsb' lo n = v := by
  apply BitVec.eq_of_getLsbD_eq
  intro i hi
  rw [BitVec.getLsbD_extractLsb']
  simp [hi, h i hi]

/-- Which bits of a field of width `n` can be 1. -/
theorem getLsbD_of_width_le {n : Nat} (v : BitVec n) (j : Nat) (h : n ≤ j) : v.getLsbD j = false :=
  BitVec.getLsbD_of_ge v j h

section fields

variable (opc : BitVec 8) (x4 : BitVec 4) (imm : BitVec 32) (s e : BitVec 16) (w : BitVec 2) (seq count : BitVec 6)
  (idx : BitVec 6) (addr : BitVec 12)

theorem opcodeField_wordN : opcodeField (wordN opc) = opc := by
  refine extract_eq _ _ _ fun i hi => ?_
  simp [wordN, getLsbD_place _ _ (56 + i) (by omega)]

theorem opcodeField_wordV : opcodeField (wordV opc x4 imm) = opc := by
  refine extract_eq _ _ _ fun i hi => ?_
  simp [wordV, getLsbD_place _ _ (56 + i) (by omega), getLsbD_of_width_le x4 (56 + i - 52) (by omega),
    getLsbD_of_width_le imm (56 + i) (by omega)]

theorem opcodeField_wordG : opcodeField (wordG opc s e) = opc := by
  refine extract_eq _ _ _ fun i hi => ?_
  simp [wordG, getLsbD_place _ _ (56 + i) (by omega), getLsbD_of_width_le s (56 + i - 32) (by omega),
    getLsbD_of_width_le e (56 + i - 16) (by omega)]

theorem opcodeField_wordF : opcodeField (wordF opc w seq count) = opc := by
  refine extract_eq _ _ _ fun i hi => ?_
  simp [wordF, getLsbD_place _ _ (56 + i) (by omega), getLsbD_of_width_le w (56 + i - 48) (by omega),
    getLsbD_of_width_le seq (56 + i - 40) (by omega), getLsbD_of_width_le count (56 + i - 32) (by omega)]

theorem opcodeField_wordT : opcodeField (wordT opc x4 idx addr imm) = opc := by
  refine extract_eq _ _ _ fun i hi => ?_
  simp [wordT, getLsbD_place _ _ (56 + i) (by omega), getLsbD_of_width_le x4 (56 + i - 52) (by omega),
    getLsbD_of_width_le idx (56 + i - 44) (by omega), getLsbD_of_width_le addr (56 + i - 32) (by omega),
    getLsbD_of_width_le imm (56 + i) (by omega)]

theorem wordN_reserved0 : (wordN opc).extractLsb' 0 56 = 0#56 := by
  refine extract_eq _ _ _ fun i hi => ?_
  simp [wordN, getLsbD_place _ _ i (by omega), show ¬ 56 ≤ i by omega]

theorem wordV_x4 : (wordV opc x4 imm).extractLsb' 52 4 = x4 := by
  refine extract_eq _ _ _ fun i hi => ?_
  simp [wordV, getLsbD_place _ _ (52 + i) (by omega), show ¬ 56 ≤ 52 + i by omega, getLsbD_of_width_le imm (52 + i) (by omega)]

theorem wordV_imm : (wordV opc x4 imm).extractLsb' 0 32 = imm := by
  refine extract_eq _ _ _ fun i hi => ?_
  simp [wordV, getLsbD_place _ _ i (by omega), show ¬ 56 ≤ i by omega, show ¬ 52 ≤ i by omega]

theorem wordV_reserved32 : (wordV opc x4 imm).extractLsb' 32 20 = 0#20 := by
  refine extract_eq _ _ _ fun i hi => ?_
  simp [wordV, getLsbD_place _ _ (32 + i) (by omega), show ¬ 56 ≤ 32 + i by omega, show ¬ 52 ≤ 32 + i by omega]

theorem wordG_s : (wordG opc s e).extractLsb' 32 16 = s := by
  refine extract_eq _ _ _ fun i hi => ?_
  simp [wordG, getLsbD_place _ _ (32 + i) (by omega), show ¬ 56 ≤ 32 + i by omega, getLsbD_of_width_le e (32 + i - 16) (by omega)]

theorem wordG_e : (wordG opc s e).extractLsb' 16 16 = e := by
  refine extract_eq _ _ _ fun i hi => ?_
  simp [wordG, getLsbD_place _ _ (16 + i) (by omega), show ¬ 56 ≤ 16 + i by omega, show ¬ 32 ≤ 16 + i by omega]

theorem wordG_reserved48 : (wordG opc s e).extractLsb' 48 8 = 0#8 := by
  refine extract_eq _ _ _ fun i hi => ?_
  simp [wordG, getLsbD_place _ _ (48 + i) (by omega), show ¬ 56 ≤ 48 + i by omega, getLsbD_of_width_le s (48 + i - 32) (by omega), getLsbD_of_width_le e (48 + i - 16) (by omega)]

theorem wordG_reserved0 : (wordG opc s e).extractLsb' 0 16 = 0#16 := by
  refine extract_eq _ _ _ fun i hi => ?_
  simp [wordG, getLsbD_place _ _ i (by omega), show ¬ 56 ≤ i by omega, show ¬ 32 ≤ i by omega, show ¬ 16 ≤ i by omega]

theorem wordF_w : (wordF opc w seq count).extractLsb' 48 2 = w := by
  refine extract_eq _ _ _ fun i hi => ?_
  simp [wordF, getLsbD_place _ _ (48 + i) (by omega), show ¬ 56 ≤ 48 + i by omega, getLsbD_of_width_le seq (48 + i - 40) (by omega), getLsbD_of_width_le count (48 + i - 32) (by omega)]

theorem wordF_seq : (wordF opc w seq count).extractLsb' 40 6 = seq := by
  refine extract_eq _ _ _ fun i hi => ?_
  simp [wordF, getLsbD_place _ _ (40 + i) (by omega), show ¬ 56 ≤ 40 + i by omega, show ¬ 48 ≤ 40 + i by omega, getLsbD_of_width_le count (40 + i - 32) (by omega)]

theorem wordF_count : (wordF opc w seq count).extractLsb' 32 6 = count := by
  refine extract_eq _ _ _ fun i hi => ?_
  simp [wordF, getLsbD_place _ _ (32 + i) (by omega), show ¬ 56 ≤ 32 + i by omega, show ¬ 48 ≤ 32 + i by omega, show ¬ 40 ≤ 32 + i by omega]

theorem wordF_reserved50 : (wordF opc w seq count).extractLsb' 50 6 = 0#6 := by
  refine extract_eq _ _ _ fun i hi => ?_
  simp [wordF, getLsbD_place _ _ (50 + i) (by omega), show ¬ 56 ≤ 50 + i by omega, getLsbD_of_width_le w (50 + i - 48) (by omega), getLsbD_of_width_le seq (50 + i - 40) (by omega), getLsbD_of_width_le count (50 + i - 32) (by omega)]

theorem wordF_reserved46 : (wordF opc w seq count).extractLsb' 46 2 = 0#2 := by
  refine extract_eq _ _ _ fun i hi => ?_
  simp [wordF, getLsbD_place _ _ (46 + i) (by omega), show ¬ 56 ≤ 46 + i by omega, show ¬ 48 ≤ 46 + i by omega, getLsbD_of_width_le seq (46 + i - 40) (by omega), getLsbD_of_width_le count (46 + i - 32) (by omega)]

theorem wordF_reserved38 : (wordF opc w seq count).extractLsb' 38 2 = 0#2 := by
  refine extract_eq _ _ _ fun i hi => ?_
  simp [wordF, getLsbD_place _ _ (38 + i) (by omega), show ¬ 56 ≤ 38 + i by omega, show ¬ 48 ≤ 38 + i by omega, show ¬ 40 ≤ 38 + i by omega, getLsbD_of_width_le count (38 + i - 32) (by omega)]

theorem wordF_reserved0 : (wordF opc w seq count).extractLsb' 0 32 = 0#32 := by
  refine extract_eq _ _ _ fun i hi => ?_
  simp [wordF, getLsbD_place _ _ i (by omega), show ¬ 56 ≤ i by omega, show ¬ 48 ≤ i by omega, show ¬ 40 ≤ i by omega, show ¬ 32 ≤ i by omega]

theorem wordT_x4 : (wordT opc x4 idx addr imm).extractLsb' 52 4 = x4 := by
  refine extract_eq _ _ _ fun i hi => ?_
  simp [wordT, getLsbD_place _ _ (52 + i) (by omega), show ¬ 56 ≤ 52 + i by omega, getLsbD_of_width_le idx (52 + i - 44) (by omega), getLsbD_of_width_le addr (52 + i - 32) (by omega), getLsbD_of_width_le imm (52 + i) (by omega)]

theorem wordT_idx : (wordT opc x4 idx addr imm).extractLsb' 44 6 = idx := by
  refine extract_eq _ _ _ fun i hi => ?_
  simp [wordT, getLsbD_place _ _ (44 + i) (by omega), show ¬ 56 ≤ 44 + i by omega, show ¬ 52 ≤ 44 + i by omega, getLsbD_of_width_le addr (44 + i - 32) (by omega), getLsbD_of_width_le imm (44 + i) (by omega)]

theorem wordT_addr : (wordT opc x4 idx addr imm).extractLsb' 32 12 = addr := by
  refine extract_eq _ _ _ fun i hi => ?_
  simp [wordT, getLsbD_place _ _ (32 + i) (by omega), show ¬ 56 ≤ 32 + i by omega, show ¬ 52 ≤ 32 + i by omega, show ¬ 44 ≤ 32 + i by omega]

theorem wordT_imm : (wordT opc x4 idx addr imm).extractLsb' 0 32 = imm := by
  refine extract_eq _ _ _ fun i hi => ?_
  simp [wordT, getLsbD_place _ _ i (by omega), show ¬ 56 ≤ i by omega, show ¬ 52 ≤ i by omega, show ¬ 44 ≤ i by omega, show ¬ 32 ≤ i by omega]

theorem wordT_reserved50 : (wordT opc x4 idx addr imm).extractLsb' 50 2 = 0#2 := by
  refine extract_eq _ _ _ fun i hi => ?_
  simp [wordT, getLsbD_place _ _ (50 + i) (by omega), show ¬ 56 ≤ 50 + i by omega, show ¬ 52 ≤ 50 + i by omega, getLsbD_of_width_le idx (50 + i - 44) (by omega), getLsbD_of_width_le addr (50 + i - 32) (by omega), getLsbD_of_width_le imm (50 + i) (by omega)]

end fields

end Sys2Proof
end

