-- ==== Sys2Proof/Laws/Memory.lean ====
section
/-! SUPPORT. The laws of the buffer: a read after a write, and that every operation keeps the canonical form and the
bound on the cells' indices. -/

namespace Sys2Proof.Machine

@[simp] theorem Memory.read_nil (i : Nat) : Memory.read [] i = unlistedByte := rfl

theorem Memory.read_cons (b : Nat) (v : Byte) (m : Memory) (i : Nat) :
    Memory.read ((b, v) :: m) i = if i = b then v else Memory.read m i := rfl

/-- Below every listed index a buffer reads as unlisted. -/
theorem Memory.read_below : ∀ {m : Memory} {lo i : Nat}, Memory.wfFrom lo m = true → i < lo →
    m.read i = unlistedByte
  | [], _, _, _, _ => rfl
  | (b, v) :: m, lo, i, h, hi => by
    simp only [Memory.wfFrom, Bool.and_eq_true, decide_eq_true_eq] at h
    rw [Memory.read_cons, if_neg (by omega)]
    exact Memory.read_below h.2 (by omega)

theorem Memory.wfFrom_mono : ∀ {m : Memory} {lo lo' : Nat}, Memory.wfFrom lo m = true → lo' ≤ lo →
    Memory.wfFrom lo' m = true
  | [], _, _, _, _ => rfl
  | (b, v) :: m, lo, lo', h, hle => by
    simp only [Memory.wfFrom, Bool.and_eq_true, decide_eq_true_eq] at h ⊢
    exact ⟨⟨by omega, h.1.2⟩, h.2⟩

theorem Memory.wfFrom_push {m : Memory} {lo i : Nat} {v : Byte} (h : Memory.wfFrom (i + 1) m = true) (hi : lo ≤ i) :
    Memory.wfFrom lo (Memory.push i v m) = true := by
  unfold Memory.push
  split
  · exact Memory.wfFrom_mono h (by omega)
  · next hv => simp [Memory.wfFrom, hi, hv, h]

theorem Memory.wfFrom_write : ∀ {m : Memory} {lo i : Nat} {v : Byte}, Memory.wfFrom lo m = true → lo ≤ i →
    Memory.wfFrom lo (m.write i v) = true
  | [], lo, i, v, _, hi => Memory.wfFrom_push rfl hi
  | (b, w) :: m, lo, i, v, h, hi => by
    have h' := h
    simp only [Memory.wfFrom, Bool.and_eq_true, decide_eq_true_eq] at h'
    simp only [Memory.write]
    split
    · refine Memory.wfFrom_push ?_ hi
      simp only [Memory.wfFrom, Bool.and_eq_true, decide_eq_true_eq]
      exact ⟨⟨by omega, h'.1.2⟩, h'.2⟩
    · split
      · next hb => exact Memory.wfFrom_push (hb ▸ h'.2) hi
      · simp only [Memory.wfFrom, Bool.and_eq_true, decide_eq_true_eq]
        exact ⟨h'.1, Memory.wfFrom_write h'.2 (by omega)⟩

/-- A write keeps the canonical form. -/
theorem Memory.wf_write {m : Memory} {i : Nat} {v : Byte} (h : m.wf = true) : (m.write i v).wf = true :=
  Memory.wfFrom_write h (Nat.zero_le i)

/-- Storing a list of bytes keeps the canonical form. -/
theorem Memory.wf_writeBytes : ∀ {bs : List Byte} {m : Memory} {i : Nat}, m.wf = true → (m.writeBytes i bs).wf = true
  | [], _, _, h => h
  | b :: bs, m, i, h => Memory.wf_writeBytes (bs := bs) (m := m.write i b) (i := i + 1) (Memory.wf_write h)

theorem Memory.read_push (m : Memory) (i : Nat) (v : Byte) (j : Nat) (h : Memory.read m i = unlistedByte) :
    (Memory.push i v m).read j = if j = i then v else m.read j := by
  unfold Memory.push
  split
  · next hv =>
    by_cases hj : j = i
    · rw [if_pos hj, hj, h, hv]
    · rw [if_neg hj]
  · rfl

theorem Memory.read_write_from : ∀ {m : Memory} {lo : Nat}, Memory.wfFrom lo m = true → ∀ (i : Nat) (v : Byte) (j : Nat),
    (m.write i v).read j = if j = i then v else m.read j
  | [], _, _, i, v, j => Memory.read_push [] i v j rfl
  | (b, w) :: m, lo, h, i, v, j => by
    have h' := h
    simp only [Memory.wfFrom, Bool.and_eq_true, decide_eq_true_eq] at h'
    simp only [Memory.write]
    split
    · next hb =>
      refine Memory.read_push _ i v j (Memory.read_below (lo := b) ?_ hb)
      simp only [Memory.wfFrom, Bool.and_eq_true, decide_eq_true_eq]
      exact ⟨⟨by omega, h'.1.2⟩, h'.2⟩
    · split
      · next hb =>
        subst hb
        rw [Memory.read_push m i v j (Memory.read_below h'.2 (by omega)), Memory.read_cons]
        split <;> rfl
      · next hb =>
        rw [Memory.read_cons, Memory.read_cons, Memory.read_write_from h'.2 i v j]
        by_cases hj : j = b
        · rw [if_pos hj, if_pos hj, if_neg (by omega)]
        · rw [if_neg hj, if_neg hj]

/-- The byte stored is the byte read, and every other byte reads as before. -/
theorem Memory.read_write {m : Memory} (h : m.wf = true) (i : Nat) (v : Byte) (j : Nat) :
    (m.write i v).read j = if j = i then v else m.read j :=
  Memory.read_write_from h i v j

/-- Storing a list of bytes: the bytes from `i` on are the list's, every other byte reads as before. -/
theorem Memory.read_writeBytes : ∀ (bs : List Byte) {m : Memory} (_ : m.wf = true) (i j : Nat),
    (m.writeBytes i bs).read j = if h : i ≤ j ∧ j < i + bs.length then bs[j - i]'(by omega) else m.read j
  | [], m, h, i, j => by simp [Memory.writeBytes]
  | b :: bs, m, h, i, j => by
    rw [Memory.writeBytes, Memory.read_writeBytes bs (Memory.wf_write h), Memory.read_write h]
    by_cases hj : j = i
    · subst hj
      simp
    · by_cases hr : i + 1 ≤ j ∧ j < i + 1 + bs.length
      · rw [dif_pos hr, dif_pos (by simp; omega)]
        obtain ⟨k, rfl⟩ : ∃ k, j = i + 1 + k := ⟨j - (i + 1), by omega⟩
        simp only [Nat.add_sub_cancel_left]
        have : i + 1 + k - i = k + 1 := by omega
        simp [this]
      · rw [dif_neg hr, dif_neg (by simp; omega), if_neg hj]

@[simp] theorem Memory.length_readBytes : ∀ (n : Nat) (m : Memory) (i : Nat), (m.readBytes i n).length = n
  | 0, _, _ => rfl
  | n + 1, m, i => by simp [Memory.readBytes, Memory.length_readBytes n]

theorem Memory.getElem_readBytes : ∀ (n : Nat) (m : Memory) (i k : Nat) (h : k < (m.readBytes i n).length),
    (m.readBytes i n)[k] = m.read (i + k)
  | n + 1, m, i, 0, _ => rfl
  | n + 1, m, i, k + 1, h => by
    simp only [Memory.readBytes, List.getElem_cons_succ]
    rw [Memory.getElem_readBytes n m (i + 1) k]
    congr 1
    omega

/-- Two buffers that read alike on a range give the same list of bytes. -/
theorem Memory.readBytes_congr {m m' : Memory} {i i' n : Nat} (h : ∀ k, k < n → m.read (i + k) = m'.read (i' + k)) :
    m.readBytes i n = m'.readBytes i' n := by
  apply List.ext_getElem
  · simp
  · intro k h₁ h₂
    rw [Memory.getElem_readBytes, Memory.getElem_readBytes]
    exact h k (by simpa using h₁)

theorem Memory.readBytes_add (m : Memory) (i n k : Nat) :
    m.readBytes i (n + k) = m.readBytes i n ++ m.readBytes (i + n) k := by
  induction n generalizing i with
  | zero => simp [Memory.readBytes]
  | succ n ih =>
    rw [Nat.add_right_comm, Memory.readBytes, ih, Memory.readBytes]
    simp [Nat.add_assoc, Nat.add_comm 1 n]

/-- A list just stored reads back. -/
theorem Memory.readBytes_writeBytes {m : Memory} (h : m.wf = true) (i : Nat) (bs : List Byte) :
    (m.writeBytes i bs).readBytes i bs.length = bs := by
  apply List.ext_getElem
  · simp
  · intro k h₁ h₂
    rw [Memory.getElem_readBytes, Memory.read_writeBytes bs h, dif_pos (by omega)]
    simp

/-- A part of a list just stored reads back. -/
theorem Memory.readBytes_writeBytes_part {m : Memory} (h : m.wf = true) (i : Nat) (l₁ l₂ l₃ : List Byte) :
    (m.writeBytes i (l₁ ++ l₂ ++ l₃)).readBytes (i + l₁.length) l₂.length = l₂ := by
  apply List.ext_getElem
  · simp
  · intro k h₁ h₂
    rw [Memory.getElem_readBytes, Memory.read_writeBytes _ h, dif_pos (by simp; omega)]
    have e : i + l₁.length + k - i = l₁.length + k := by omega
    simp only [e]
    rw [List.getElem_append_left (by simp; omega), List.getElem_append_right (by omega)]
    simp

theorem Memory.mem_push {m : Memory} {i : Nat} {v : Byte} {c : Host.Cell} (h : c ∈ Memory.push i v m) :
    c.1 = i ∨ c ∈ m := by
  unfold Memory.push at h
  split at h
  · exact .inr h
  · rcases List.mem_cons.1 h with rfl | h
    · exact .inl rfl
    · exact .inr h

/-- A write lists no new index but its own. -/
theorem Memory.mem_write : ∀ {m : Memory} {i : Nat} {v : Byte} {c : Host.Cell}, c ∈ m.write i v → c.1 = i ∨ c ∈ m
  | [], i, v, c, h => Memory.mem_push h
  | (b, w) :: m, i, v, c, h => by
    simp only [Memory.write] at h
    split at h
    · exact Memory.mem_push h
    · split at h
      · exact (Memory.mem_push h).imp_right (List.mem_cons_of_mem _)
      · rcases List.mem_cons.1 h with rfl | h
        · exact .inr (List.mem_cons_self ..)
        · exact (Memory.mem_write h).imp_right (List.mem_cons_of_mem _)

/-- Storing bytes below a bound keeps every cell below it. -/
theorem Memory.below_writeBytes : ∀ {bs : List Byte} {m : Memory} {i cap : Nat}, (∀ c ∈ m, c.1 < cap) →
    i + bs.length ≤ cap → ∀ c ∈ m.writeBytes i bs, c.1 < cap
  | [], _, _, _, h, _ => h
  | b :: bs, m, i, cap, h, hi => by
    have hl : (b :: bs).length = bs.length + 1 := rfl
    refine Memory.below_writeBytes (m := m.write i b) (fun c hc => ?_) (by omega)
    rcases Memory.mem_write hc with e | hc
    · omega
    · exact h c hc

end Sys2Proof.Machine
end

