-- ==== Sys2Proof/Laws/State.lean ====
section
/-! SUPPORT. The small lemmas of the state updates: what each shared update does to each field. -/

namespace Sys2Proof.Machine

/-! `done` -/

@[simp] theorem State.done_params (s : State) : (s.done).params = s.params := rfl
@[simp] theorem State.done_a (s : State) : (s.done).a = s.a := rfl
@[simp] theorem State.done_x (s : State) : (s.done).x = s.x := rfl
@[simp] theorem State.done_pos (s : State) : (s.done).pos = s.pos := rfl
@[simp] theorem State.done_len (s : State) : (s.done).len = s.len := rfl
@[simp] theorem State.done_ck (s : State) : (s.done).ck = s.ck := rfl
@[simp] theorem State.done_crc (s : State) : (s.done).crc = s.crc := rfl
@[simp] theorem State.done_seq (s : State) : (s.done).seq = s.seq := rfl
@[simp] theorem State.done_err (s : State) : (s.done).err = 0#4 := rfl
@[simp] theorem State.done_faultBit (s : State) : (s.done).faultBit = s.faultBit := rfl
@[simp] theorem State.done_fop (s : State) : (s.done).fop = s.fop := rfl
@[simp] theorem State.done_fwidth (s : State) : (s.done).fwidth = s.fwidth := rfl
@[simp] theorem State.done_fseq (s : State) : (s.done).fseq = s.fseq := rfl
@[simp] theorem State.done_fcount (s : State) : (s.done).fcount = s.fcount := rfl
@[simp] theorem State.done_buf (s : State) : (s.done).buf = s.buf := rfl
@[simp] theorem State.done_tab (s : State) : (s.done).tab = s.tab := rfl
@[simp] theorem State.done_inputs (s : State) : (s.done).inputs = s.inputs := rfl

/-! `fail` -/

@[simp] theorem State.fail_params (s : State) (e : Failure) : (s.fail e).params = s.params := rfl
@[simp] theorem State.fail_a (s : State) (e : Failure) : (s.fail e).a = s.a := rfl
@[simp] theorem State.fail_x (s : State) (e : Failure) : (s.fail e).x = s.x := rfl
@[simp] theorem State.fail_pos (s : State) (e : Failure) : (s.fail e).pos = s.pos := rfl
@[simp] theorem State.fail_len (s : State) (e : Failure) : (s.fail e).len = s.len := rfl
@[simp] theorem State.fail_ck (s : State) (e : Failure) : (s.fail e).ck = s.ck := rfl
@[simp] theorem State.fail_crc (s : State) (e : Failure) : (s.fail e).crc = s.crc := rfl
@[simp] theorem State.fail_seq (s : State) (e : Failure) : (s.fail e).seq = s.seq := rfl
@[simp] theorem State.fail_err (s : State) (e : Failure) : (s.fail e).err = e.code := rfl
@[simp] theorem State.fail_faultBit (s : State) (e : Failure) : (s.fail e).faultBit = s.faultBit := rfl
@[simp] theorem State.fail_fop (s : State) (e : Failure) : (s.fail e).fop = s.fop := rfl
@[simp] theorem State.fail_fwidth (s : State) (e : Failure) : (s.fail e).fwidth = s.fwidth := rfl
@[simp] theorem State.fail_fseq (s : State) (e : Failure) : (s.fail e).fseq = s.fseq := rfl
@[simp] theorem State.fail_fcount (s : State) (e : Failure) : (s.fail e).fcount = s.fcount := rfl
@[simp] theorem State.fail_buf (s : State) (e : Failure) : (s.fail e).buf = s.buf := rfl
@[simp] theorem State.fail_tab (s : State) (e : Failure) : (s.fail e).tab = s.tab := rfl
@[simp] theorem State.fail_inputs (s : State) (e : Failure) : (s.fail e).inputs = s.inputs := rfl

/-! `raise` -/

@[simp] theorem State.raise_params (s : State) (e : Misuse) : (s.raise e).params = s.params := rfl
@[simp] theorem State.raise_a (s : State) (e : Misuse) : (s.raise e).a = s.a := rfl
@[simp] theorem State.raise_x (s : State) (e : Misuse) : (s.raise e).x = s.x := rfl
@[simp] theorem State.raise_pos (s : State) (e : Misuse) : (s.raise e).pos = s.pos := rfl
@[simp] theorem State.raise_len (s : State) (e : Misuse) : (s.raise e).len = s.len := rfl
@[simp] theorem State.raise_ck (s : State) (e : Misuse) : (s.raise e).ck = s.ck := rfl
@[simp] theorem State.raise_crc (s : State) (e : Misuse) : (s.raise e).crc = s.crc := rfl
@[simp] theorem State.raise_seq (s : State) (e : Misuse) : (s.raise e).seq = s.seq := rfl
@[simp] theorem State.raise_err (s : State) (e : Misuse) : (s.raise e).err = e.code := rfl
@[simp] theorem State.raise_faultBit (s : State) (e : Misuse) : (s.raise e).faultBit = true := rfl
@[simp] theorem State.raise_fop (s : State) (e : Misuse) : (s.raise e).fop = s.fop := rfl
@[simp] theorem State.raise_fwidth (s : State) (e : Misuse) : (s.raise e).fwidth = s.fwidth := rfl
@[simp] theorem State.raise_fseq (s : State) (e : Misuse) : (s.raise e).fseq = s.fseq := rfl
@[simp] theorem State.raise_fcount (s : State) (e : Misuse) : (s.raise e).fcount = s.fcount := rfl
@[simp] theorem State.raise_buf (s : State) (e : Misuse) : (s.raise e).buf = s.buf := rfl
@[simp] theorem State.raise_tab (s : State) (e : Misuse) : (s.raise e).tab = s.tab := rfl
@[simp] theorem State.raise_inputs (s : State) (e : Misuse) : (s.raise e).inputs = s.inputs := rfl

/-! reset -/

@[simp] theorem State.resetBlock_params (s : State) : (s.resetBlock).params = s.params := rfl
@[simp] theorem State.resetBlock_a (s : State) : (s.resetBlock).a = 0#32 := rfl
@[simp] theorem State.resetBlock_x (s : State) : (s.resetBlock).x = 0#4 := rfl
@[simp] theorem State.resetBlock_pos (s : State) : (s.resetBlock).pos = 0#16 := rfl
@[simp] theorem State.resetBlock_len (s : State) : (s.resetBlock).len = 0#16 := rfl
@[simp] theorem State.resetBlock_ck (s : State) : (s.resetBlock).ck = 0#6 := rfl
@[simp] theorem State.resetBlock_crc (s : State) : (s.resetBlock).crc = s.params.crcInit := rfl
@[simp] theorem State.resetBlock_seq (s : State) : (s.resetBlock).seq = 0#6 := rfl
@[simp] theorem State.resetBlock_err (s : State) : (s.resetBlock).err = 0#4 := rfl
@[simp] theorem State.resetBlock_faultBit (s : State) : (s.resetBlock).faultBit = false := rfl
@[simp] theorem State.resetBlock_fop (s : State) : (s.resetBlock).fop = 0#8 := rfl
@[simp] theorem State.resetBlock_fwidth (s : State) : (s.resetBlock).fwidth = 0#3 := rfl
@[simp] theorem State.resetBlock_fseq (s : State) : (s.resetBlock).fseq = 0#6 := rfl
@[simp] theorem State.resetBlock_fcount (s : State) : (s.resetBlock).fcount = 0#6 := rfl
@[simp] theorem State.resetBlock_buf (s : State) : (s.resetBlock).buf = s.buf := rfl
@[simp] theorem State.resetBlock_tab (s : State) : (s.resetBlock).tab = Vector.replicate 64 ⟨0#12, 0#32, 0#4⟩ := rfl
@[simp] theorem State.resetBlock_inputs (s : State) : (s.resetBlock).inputs = s.inputs := rfl

/-! bytes stored at the cursor -/

@[simp] theorem State.putAtCursor_params (s : State) (bs : List Byte) : (s.putAtCursor bs).params = s.params := rfl
@[simp] theorem State.putAtCursor_a (s : State) (bs : List Byte) : (s.putAtCursor bs).a = s.a := rfl
@[simp] theorem State.putAtCursor_x (s : State) (bs : List Byte) : (s.putAtCursor bs).x = s.x := rfl
@[simp] theorem State.putAtCursor_pos (s : State) (bs : List Byte) : (s.putAtCursor bs).pos = s.pos + BitVec.ofNat 16 bs.length := rfl
@[simp] theorem State.putAtCursor_len (s : State) (bs : List Byte) : (s.putAtCursor bs).len = if s.len < s.pos + BitVec.ofNat 16 bs.length then s.pos + BitVec.ofNat 16 bs.length else s.len := rfl
@[simp] theorem State.putAtCursor_ck (s : State) (bs : List Byte) : (s.putAtCursor bs).ck = s.ck := rfl
@[simp] theorem State.putAtCursor_crc (s : State) (bs : List Byte) : (s.putAtCursor bs).crc = s.crc := rfl
@[simp] theorem State.putAtCursor_seq (s : State) (bs : List Byte) : (s.putAtCursor bs).seq = s.seq := rfl
@[simp] theorem State.putAtCursor_err (s : State) (bs : List Byte) : (s.putAtCursor bs).err = s.err := rfl
@[simp] theorem State.putAtCursor_faultBit (s : State) (bs : List Byte) : (s.putAtCursor bs).faultBit = s.faultBit := rfl
@[simp] theorem State.putAtCursor_fop (s : State) (bs : List Byte) : (s.putAtCursor bs).fop = s.fop := rfl
@[simp] theorem State.putAtCursor_fwidth (s : State) (bs : List Byte) : (s.putAtCursor bs).fwidth = s.fwidth := rfl
@[simp] theorem State.putAtCursor_fseq (s : State) (bs : List Byte) : (s.putAtCursor bs).fseq = s.fseq := rfl
@[simp] theorem State.putAtCursor_fcount (s : State) (bs : List Byte) : (s.putAtCursor bs).fcount = s.fcount := rfl
@[simp] theorem State.putAtCursor_buf (s : State) (bs : List Byte) : (s.putAtCursor bs).buf = s.buf.writeBytes s.pos.toNat bs := rfl
@[simp] theorem State.putAtCursor_tab (s : State) (bs : List Byte) : (s.putAtCursor bs).tab = s.tab := rfl
@[simp] theorem State.putAtCursor_inputs (s : State) (bs : List Byte) : (s.putAtCursor bs).inputs = s.inputs := rfl

/-! a word presented first -/

@[simp] theorem State.presentFirst_params (s : State) (w : BitVec 64) : (s.presentFirst w).params = s.params := rfl
@[simp] theorem State.presentFirst_a (s : State) (w : BitVec 64) : (s.presentFirst w).a = s.a := rfl
@[simp] theorem State.presentFirst_x (s : State) (w : BitVec 64) : (s.presentFirst w).x = s.x := rfl
@[simp] theorem State.presentFirst_pos (s : State) (w : BitVec 64) : (s.presentFirst w).pos = s.pos := rfl
@[simp] theorem State.presentFirst_len (s : State) (w : BitVec 64) : (s.presentFirst w).len = s.len := rfl
@[simp] theorem State.presentFirst_ck (s : State) (w : BitVec 64) : (s.presentFirst w).ck = s.ck := rfl
@[simp] theorem State.presentFirst_crc (s : State) (w : BitVec 64) : (s.presentFirst w).crc = s.crc := rfl
@[simp] theorem State.presentFirst_seq (s : State) (w : BitVec 64) : (s.presentFirst w).seq = s.seq := rfl
@[simp] theorem State.presentFirst_err (s : State) (w : BitVec 64) : (s.presentFirst w).err = s.err := rfl
@[simp] theorem State.presentFirst_faultBit (s : State) (w : BitVec 64) : (s.presentFirst w).faultBit = s.faultBit := rfl
@[simp] theorem State.presentFirst_fop (s : State) (w : BitVec 64) : (s.presentFirst w).fop = s.fop := rfl
@[simp] theorem State.presentFirst_fwidth (s : State) (w : BitVec 64) : (s.presentFirst w).fwidth = s.fwidth := rfl
@[simp] theorem State.presentFirst_fseq (s : State) (w : BitVec 64) : (s.presentFirst w).fseq = s.fseq := rfl
@[simp] theorem State.presentFirst_fcount (s : State) (w : BitVec 64) : (s.presentFirst w).fcount = s.fcount := rfl
@[simp] theorem State.presentFirst_buf (s : State) (w : BitVec 64) : (s.presentFirst w).buf = s.buf := rfl
@[simp] theorem State.presentFirst_tab (s : State) (w : BitVec 64) : (s.presentFirst w).tab = s.tab := rfl
@[simp] theorem State.presentFirst_inputs (s : State) (w : BitVec 64) : (s.presentFirst w).inputs = .command w :: s.inputs := rfl

end Sys2Proof.Machine
end

