-- ==== Sys2Proof/Laws/Ops.lean ====
section
/-! SUPPORT. One lemma per shared operation: everything it can do. -/

namespace Sys2Proof.Machine

/-- The cursor's advance does not wrap when there is room. -/
theorem State.pos_add_toNat {s : State} {n : Nat} (h : s.roomFor n = true) :
    (s.pos + BitVec.ofNat 16 n).toNat = s.pos.toNat + n := by
  have hb := s.params.bufcap.isLt
  simp only [State.roomFor, decide_eq_true_eq] at h
  rw [BitVec.toNat_add, BitVec.toNat_ofNat]
  omega

/-- The cursor's advance does not wrap when the bytes are valid. -/
theorem State.pos_add_toNat_of_holds {s : State} {n : Nat} (h : s.holds n = true) :
    (s.pos + BitVec.ofNat 16 n).toNat = s.pos.toNat + n := by
  have hb := s.len.isLt
  simp only [State.holds, decide_eq_true_eq] at h
  rw [BitVec.toNat_add, BitVec.toNat_ofNat]
  omega

/-- `LEN <- max(LEN, POS)`. -/
theorem State.putAtCursor_len_toNat {s : State} {bs : List Byte} (h : s.roomFor bs.length = true) :
    (s.putAtCursor bs).len.toNat = max s.len.toNat (s.pos.toNat + bs.length) := by
  have e := State.pos_add_toNat h
  rw [State.putAtCursor_len]
  split
  · next hl =>
    rw [BitVec.lt_def, e] at hl
    rw [e]
    omega
  · next hl =>
    rw [BitVec.lt_def, e] at hl
    omega

/-- Bytes stored at the cursor, with room and a canonical buffer. -/
theorem State.putAtCursor_stored {s : State} {bs : List Byte} (hw : s.buf.wf = true)
    (h : s.roomFor bs.length = true) : StoredAtCursor s (s.putAtCursor bs).done bs where
  rest := rfl
  pos := State.pos_add_toNat h
  len := State.putAtCursor_len_toNat h
  stored := Memory.readBytes_writeBytes hw _ _
  other j hj := by
    simp only [State.done_buf, State.putAtCursor_buf]
    rw [Memory.read_writeBytes bs hw, dif_neg (by omega)]

/-- Everything the common encode step can do (41_radix64_codec.md R125). -/
theorem encodeStep_cases (c : CodecWidth) (x4 : BitVec 4) (imm : BitVec 32) (s : State) :
    (¬ (imm.toNat < 2 ^ c.bits ∧ x4.toNat < 2 ^ c.xbits) ∧ encodeStep c x4 imm s = s.raise .operand) ∨
    ((imm.toNat < 2 ^ c.bits ∧ x4.toNat < 2 ^ c.xbits) ∧ s.params.bufcap.toNat < s.pos.toNat + c.nsym ∧
      encodeStep c x4 imm s = s.raise .range) ∨
    ((imm.toNat < 2 ^ c.bits ∧ x4.toNat < 2 ^ c.xbits) ∧ s.roomFor c.nsym = true ∧
      encodeStep c x4 imm s = (s.putAtCursor (pack c imm x4)).done) := by
  unfold encodeStep
  by_cases h₁ : imm.toNat < 2 ^ c.bits
  · by_cases h₂ : x4.toNat < 2 ^ c.xbits
    · by_cases h₃ : s.roomFor c.nsym = true
      · simp [fits, extraFits, h₁, h₂, h₃]
      · have h₄ := h₃
        simp only [State.roomFor, decide_eq_true_eq] at h₄
        simp [fits, extraFits, h₁, h₂, h₃]
        omega
    · simp [fits, extraFits, h₁, h₂]
  · simp [fits, h₁]

/-- Everything the common decode step can do (R131). -/
theorem decodeStep_cases (c : CodecWidth) (s : State) :
    (s.len.toNat < s.pos.toNat + c.nsym ∧ decodeStep c s = s.raise .range) ∨
    (s.pos.toNat + c.nsym ≤ s.len.toNat ∧
      decodeStep c s =
        { s with a := (unpack c (s.buf.readBytes s.pos.toNat c.nsym)).1
                 x := (unpack c (s.buf.readBytes s.pos.toNat c.nsym)).2
                 pos := s.pos + BitVec.ofNat 16 c.nsym
                 err := 0#4 }) := by
  unfold decodeStep
  by_cases h : s.pos.toNat + c.nsym ≤ s.len.toNat
  · exact .inr ⟨h, by simp [State.holds, h]; rfl⟩
  · exact .inl ⟨by omega, by simp [State.holds, h]⟩

/-- Everything the common assemble step can do (43_frame.md R154). -/
theorem assemble_cases (op : FrameOp) (wf : BitVec 2) (seq count : Six) (s : State) :
    assemble op wf seq count s = s.raise .operand ∨ assemble op wf seq count s = s.raise .range ∨
    ∃ w, FrameWidth.ofField wf = some w ∧ 7 + count.toNat * requestEntrySize op w ≤ s.params.bufcap.toNat ∧
      assemble op wf seq count s =
        { s with buf := s.buf.writeBytes 0
                    (requestFrame op w seq count ((s.entries count).flatMap (requestEntry op w)))
                 len := BitVec.ofNat 16 (7 + count.toNat * requestEntrySize op w)
                 pos := BitVec.ofNat 16 (7 + count.toNat * requestEntrySize op w)
                 err := 0#4 } := by
  unfold assemble
  split
  · exact .inl rfl
  · next w hw =>
    dsimp only
    split
    · exact .inl rfl
    · split
      · exact .inr (.inl rfl)
      · next hn => exact .inr (.inr ⟨w, hw, by omega, rfl⟩)

/-- Everything the common parse step can do (R160). -/
theorem parse_cases (op : FrameOp) (s : State) :
    (∃ e, parseChecks op s.buf s.len.toNat = .error e ∧ parse op s = s.fail e) ∨
    (∃ h, parseChecks op s.buf s.len.toNat = .ok h ∧
      parse op s =
        { s with tab := storeResponses op h s.buf s.tab, fop := op.char, fwidth := BitVec.ofNat 3 h.width.bytes
                 fseq := h.seq, fcount := h.count, err := 0#4 }) := by
  unfold parse
  cases h : parseChecks op s.buf s.len.toNat with
  | error e => exact .inl ⟨e, rfl, rfl⟩
  | ok hd => exact .inr ⟨hd, rfl, rfl⟩

/-- The codes of the failure class (60_exceptions.md R231). -/
theorem Failure.code_bounds (e : Failure) : 1 ≤ e.code.toNat ∧ e.code.toNat ≤ 8 := by
  cases e <;> decide

/-- The codes of the fault class (R231). -/
theorem Misuse.code_bounds (e : Misuse) : 12 ≤ e.code.toNat ∧ e.code.toNat ≤ 14 := by
  cases e <;> decide

/-- A parse never ends with the code of `CRCVFY` (R230). -/
theorem parseChecks_ne_crc (op : FrameOp) (m : Memory) (n : Nat) : parseChecks op m n ≠ .error .crc := by
  unfold parseChecks
  split
  · simp
  split
  · simp
  split
  · simp
  split
  · simp
  split
  · simp
  · dsimp only
    split
    · simp
    split <;> simp

@[simp] theorem FrameWidth.ofChar_char (w : FrameWidth) : FrameWidth.ofChar w.char = some w := by
  cases w <;> decide

theorem FrameWidth.char_of_ofChar {b : Byte} {w : FrameWidth} (h : FrameWidth.ofChar b = some w) : b = w.char := by
  unfold FrameWidth.ofChar at h
  split at h
  · simp only [Option.some.injEq] at h
    subst h
    assumption
  · split at h
    · simp only [Option.some.injEq] at h
      subst h
      assumption
    · split at h
      · simp only [Option.some.injEq] at h
        subst h
        assumption
      · cases h

/-- The checks of a parse pass exactly on a response frame, and then they give its fields. -/
theorem parseChecks_ok_iff (op : FrameOp) (s : State) (h : ResponseHeader) :
    parseChecks op s.buf s.len.toNat = .ok h ↔ HoldsResponse op s h.width h.seq h.count := by
  unfold parseChecks
  constructor
  · intro hp
    split at hp
    · cases hp
    · split at hp
      · cases hp
      · next hck =>
        split at hp
        · cases hp
        · next hf =>
          split at hp
          · cases hp
          · next ho =>
            split at hp
            · cases hp
            · next w hw =>
              dsimp only at hp
              split at hp
              · cases hp
              · split at hp
                · cases hp
                · simp only [Except.ok.injEq] at hp
                  subst hp
                  simp only [ne_eq, not_not, not_or] at hck hf ho
                  exact ⟨by dsimp only; omega, hf.1, ho, FrameWidth.char_of_ofChar hw, hf.2, rfl, rfl, hck.symm⟩
  · rintro ⟨hl, h0, h1, h2, h3, h4, h5, hc⟩
    have hw : FrameWidth.ofChar (s.buf.read 2) = some h.width := by rw [h2, FrameWidth.ofChar_char]
    rw [if_neg (by omega), if_neg (by rw [hc]; simp), if_neg (by simp [h0, h3, startMarker, responseMarker]),
      if_neg (by simp [h1]), hw]
    dsimp only
    rw [h5, if_neg (by omega), if_neg (by omega), h4]

theorem length_requestEntry (op : FrameOp) (w : FrameWidth) (e : TabEntry) :
    (requestEntry op w e).length = requestEntrySize op w := by
  cases op <;> simp [requestEntry, requestEntrySize, CodecWidth.nsym]

theorem length_entries (s : State) (count : Six) : (s.entries count).length = count.toNat := by
  have := count.isLt
  simp [State.entries]
  omega

/-- The length of a request frame (R153). -/
theorem length_requestFrame (op : FrameOp) (w : FrameWidth) (seq count : Six) (s : State) :
    (requestFrame op w seq count ((s.entries count).flatMap (requestEntry op w))).length =
      7 + count.toNat * requestEntrySize op w := by
  have e : (List.map (fun x => (requestEntry op w x).length) (s.entries count)).sum =
      count.toNat * requestEntrySize op w := by
    simp only [length_requestEntry, List.map_const', List.sum_replicate, length_entries, smul_eq_mul]
  simp [requestFrame, frameBody, List.length_flatMap, e]
  omega

end Sys2Proof.Machine
end

