-- ==== Sys2Proof/Laws/PerInstr.lean ====
section
/-! SUPPORT. The family of lemmas that says, command by command, that its word carries its opcode of 30_encoding.md R97 in
bits 63:56. -/

namespace Sys2Proof.Laws

/-- The opcode of R97. -/
def opcodeOf : Instr → BitVec 8
  | .nop => 0x00#8
  | .reset => 0x01#8
  | .touch => 0x02#8
  | .clrb => 0x08#8
  | .setpos _ _ => 0x09#8
  | .putb _ _ => 0x0A#8
  | .getb => 0x0B#8
  | .tabw _ _ _ _ => 0x0C#8
  | .enc6 _ _ => 0x10#8
  | .enc8 _ _ => 0x11#8
  | .enc12 _ _ => 0x12#8
  | .enc16 _ _ => 0x13#8
  | .enc32 _ _ => 0x14#8
  | .dec6 => 0x18#8
  | .dec8 => 0x19#8
  | .dec12 => 0x1A#8
  | .dec16 => 0x1B#8
  | .dec32 => 0x1C#8
  | .cksum _ _ => 0x20#8
  | .ckapp _ _ => 0x21#8
  | .ckvfy _ _ => 0x22#8
  | .crcinit => 0x30#8
  | .crcupdb _ _ => 0x31#8
  | .crcupdw _ _ => 0x32#8
  | .crcupdr _ _ => 0x33#8
  | .crcfin => 0x34#8
  | .crcvfy _ _ => 0x35#8
  | .asmrd _ _ _ => 0x40#8
  | .asmwr _ _ _ => 0x41#8
  | .parserd => 0x48#8
  | .parsewr => 0x49#8

/-- The word of a command carries the command's opcode. -/
def OpcodeInPlace.Statement (i : Instr) : Prop := opcodeField (encode i) = opcodeOf i

theorem OpcodeInPlace.nop : OpcodeInPlace.Statement .nop := opcodeField_wordN _

theorem OpcodeInPlace.reset : OpcodeInPlace.Statement .reset := opcodeField_wordN _

theorem OpcodeInPlace.touch : OpcodeInPlace.Statement .touch := opcodeField_wordN _

theorem OpcodeInPlace.clrb : OpcodeInPlace.Statement .clrb := opcodeField_wordN _

theorem OpcodeInPlace.setpos (x4 : BitVec 4) (imm : BitVec 32) : OpcodeInPlace.Statement (.setpos x4 imm) := opcodeField_wordV _ _ _

theorem OpcodeInPlace.putb (x4 : BitVec 4) (imm : BitVec 32) : OpcodeInPlace.Statement (.putb x4 imm) := opcodeField_wordV _ _ _

theorem OpcodeInPlace.getb : OpcodeInPlace.Statement .getb := opcodeField_wordN _

theorem OpcodeInPlace.tabw (rc : BitVec 4) (idx : BitVec 6) (addr : BitVec 12) (val : BitVec 32) : OpcodeInPlace.Statement (.tabw rc idx addr val) := opcodeField_wordT _ _ _ _ _

theorem OpcodeInPlace.enc6 (x4 : BitVec 4) (imm : BitVec 32) : OpcodeInPlace.Statement (.enc6 x4 imm) := opcodeField_wordV _ _ _

theorem OpcodeInPlace.enc8 (x4 : BitVec 4) (imm : BitVec 32) : OpcodeInPlace.Statement (.enc8 x4 imm) := opcodeField_wordV _ _ _

theorem OpcodeInPlace.enc12 (x4 : BitVec 4) (imm : BitVec 32) : OpcodeInPlace.Statement (.enc12 x4 imm) := opcodeField_wordV _ _ _

theorem OpcodeInPlace.enc16 (x4 : BitVec 4) (imm : BitVec 32) : OpcodeInPlace.Statement (.enc16 x4 imm) := opcodeField_wordV _ _ _

theorem OpcodeInPlace.enc32 (x4 : BitVec 4) (imm : BitVec 32) : OpcodeInPlace.Statement (.enc32 x4 imm) := opcodeField_wordV _ _ _

theorem OpcodeInPlace.dec6 : OpcodeInPlace.Statement .dec6 := opcodeField_wordN _

theorem OpcodeInPlace.dec8 : OpcodeInPlace.Statement .dec8 := opcodeField_wordN _

theorem OpcodeInPlace.dec12 : OpcodeInPlace.Statement .dec12 := opcodeField_wordN _

theorem OpcodeInPlace.dec16 : OpcodeInPlace.Statement .dec16 := opcodeField_wordN _

theorem OpcodeInPlace.dec32 : OpcodeInPlace.Statement .dec32 := opcodeField_wordN _

theorem OpcodeInPlace.cksum (s e : BitVec 16) : OpcodeInPlace.Statement (.cksum s e) := opcodeField_wordG _ _ _

theorem OpcodeInPlace.ckapp (s e : BitVec 16) : OpcodeInPlace.Statement (.ckapp s e) := opcodeField_wordG _ _ _

theorem OpcodeInPlace.ckvfy (s e : BitVec 16) : OpcodeInPlace.Statement (.ckvfy s e) := opcodeField_wordG _ _ _

theorem OpcodeInPlace.crcinit : OpcodeInPlace.Statement .crcinit := opcodeField_wordN _

theorem OpcodeInPlace.crcupdb (x4 : BitVec 4) (imm : BitVec 32) : OpcodeInPlace.Statement (.crcupdb x4 imm) := opcodeField_wordV _ _ _

theorem OpcodeInPlace.crcupdw (x4 : BitVec 4) (imm : BitVec 32) : OpcodeInPlace.Statement (.crcupdw x4 imm) := opcodeField_wordV _ _ _

theorem OpcodeInPlace.crcupdr (s e : BitVec 16) : OpcodeInPlace.Statement (.crcupdr s e) := opcodeField_wordG _ _ _

theorem OpcodeInPlace.crcfin : OpcodeInPlace.Statement .crcfin := opcodeField_wordN _

theorem OpcodeInPlace.crcvfy (x4 : BitVec 4) (imm : BitVec 32) : OpcodeInPlace.Statement (.crcvfy x4 imm) := opcodeField_wordV _ _ _

theorem OpcodeInPlace.asmrd (w : BitVec 2) (seq count : BitVec 6) : OpcodeInPlace.Statement (.asmrd w seq count) := opcodeField_wordF _ _ _ _

theorem OpcodeInPlace.asmwr (w : BitVec 2) (seq count : BitVec 6) : OpcodeInPlace.Statement (.asmwr w seq count) := opcodeField_wordF _ _ _ _

theorem OpcodeInPlace.parserd : OpcodeInPlace.Statement .parserd := opcodeField_wordN _

theorem OpcodeInPlace.parsewr : OpcodeInPlace.Statement .parsewr := opcodeField_wordN _

end Sys2Proof.Laws
end

