-- ==== Sys2Proof/Machine/Text.lean ====
section
/-! DEFINITION. The assembler text of a command (30_encoding.md R104): the mnemonic in capitals, then operands separated by
commas, numbers in decimal. -/

namespace Sys2Proof.Machine

/-- Operands of format V: `imm`, and `x=n` where `n` is not 0. -/
def textV (x4 : BitVec 4) (imm : BitVec 32) : String :=
  " " ++ Nat.repr imm.toNat ++ (if x4 = 0#4 then "" else ", x=" ++ Nat.repr x4.toNat)

/-- Operands of format G: `s, e`. -/
def textG (s e : BitVec 16) : String := " " ++ Nat.repr s.toNat ++ ", " ++ Nat.repr e.toNat

/-- Operands of format F: `w=b` in bytes, which has no spelling for `W = 3`. -/
def textF (w : BitVec 2) (seq count : BitVec 6) : Option String :=
  match FrameWidth.ofField w with
  | none => none
  | some fw =>
    some (" w=" ++ Nat.repr fw.bytes ++ ", seq=" ++ Nat.repr seq.toNat ++ ", count=" ++ Nat.repr count.toNat)

/-- Operands of format T: `idx, addr, val`, and `rc=n` where `n` is not 0. -/
def textT (rc : BitVec 4) (idx : BitVec 6) (addr : BitVec 12) (val : BitVec 32) : String :=
  " " ++ Nat.repr idx.toNat ++ ", " ++ Nat.repr addr.toNat ++ ", " ++ Nat.repr val.toNat ++
    (if rc = 0#4 then "" else ", rc=" ++ Nat.repr rc.toNat)

/-- The operand text of a command; none where R104 has no spelling for it. -/
def operandText (i : Instr) : Option String :=
  match i with
  | .setpos x4 imm => some (textV x4 imm)
  | .putb x4 imm => some (textV x4 imm)
  | .enc6 x4 imm => some (textV x4 imm)
  | .enc8 x4 imm => some (textV x4 imm)
  | .enc12 x4 imm => some (textV x4 imm)
  | .enc16 x4 imm => some (textV x4 imm)
  | .enc32 x4 imm => some (textV x4 imm)
  | .crcupdb x4 imm => some (textV x4 imm)
  | .crcupdw x4 imm => some (textV x4 imm)
  | .crcvfy x4 imm => some (textV x4 imm)
  | .cksum s e => some (textG s e)
  | .ckvfy s e => some (textG s e)
  | .crcupdr s e => some (textG s e)
  | .ckapp s e => if e = 0#16 then some (" " ++ Nat.repr s.toNat) else none
  | .asmrd w seq count => textF w seq count
  | .asmwr w seq count => textF w seq count
  | .tabw rc idx addr val => some (textT rc idx addr val)
  | .nop | .reset | .touch | .clrb | .getb | .dec6 | .dec8 | .dec12 | .dec16 | .dec32 | .crcinit | .crcfin | .parserd
  | .parsewr => some ""

/-- The text of a command (R104). -/
def text (i : Instr) : Option String := (operandText i).map fun t => i.mnemonic ++ t

end Sys2Proof.Machine
end

