-- ==== Sys2Proof/Tests/Slice0.lean ====
section
/-! SUPPORT. Tests. Expected words, bytes and values are those of spec/95_test_vectors.md and of the encodings of
30_encoding.md, not the model's own answers. The second half shows, for each statement with hypotheses, a concrete case
that meets them. -/

open Sys2Proof Sys2Proof.Machine

namespace Sys2Proof.Tests

/-- A text as bytes. -/
def ascii (t : String) : List Byte := t.toList.map fun c => BitVec.ofNat 8 c.toNat

/-- The state after reset with a text in the buffer, the cursor at its end. -/
def holding (t : String) : State :=
  { State.reset with buf := Memory.writeBytes [] 0 (ascii t), len := BitVec.ofNat 16 t.length
                     pos := BitVec.ofNat 16 t.length }

/-- The same with the cursor at an index. -/
def holdingAt (t : String) (p : BitVec 16) : State := { holding t with pos := p }

/-- The state after reset with table entries. -/
def withTable (es : List TabEntry) : State :=
  { State.reset with tab := Vector.ofFn fun i : Fin 64 => es.getD i.val ⟨0#12, 0#32, 0#4⟩ }

/-- The table that section 2.4 of the vectors starts from, with a frame in the buffer. -/
def parseStart (t : String) : State :=
  { holding t with tab := Vector.ofFn fun i : Fin 64 => if i.val < 6
      then ⟨0x700#12 + BitVec.ofNat 12 i.val, 0xAAAA0000#32 + BitVec.ofNat 32 i.val, 7#4⟩ else ⟨0#12, 0#32, 0#4⟩ }

/-- A command runs to a state with a property. -/
def ends (i : Instr) (s : State) (p : State → Bool) : Bool :=
  match exec i s with
  | .next t => p t
  | .fault _ => false
  | .refused _ => false

/-- The valid bytes of the buffer. -/
def contents (s : State) : List Byte := s.buf.readBytes 0 s.len.toNat

/-- A command raises a code of the fault class, and nothing but `STATUS` changes. -/
def raises (i : Instr) (s : State) (code : BitVec 4) : Bool :=
  ends i s fun t => t == { s with err := code, faultBit := true }

/-- A command fails with a code, and nothing else changes. -/
def failsWith (i : Instr) (s : State) (code : BitVec 4) : Bool := ends i s fun t => t == { s with err := code }

/-! ## WellFormed: one ill-formed term for each check -/

theorem test_wf_setpos_extra_refused : (Instr.setpos 1#4 0#32).wf = false := by decide
theorem test_wf_setpos_value_refused : (Instr.setpos 0#4 0x10000#32).wf = false := by decide
theorem test_wf_putb_extra_refused : (Instr.putb 8#4 0#32).wf = false := by decide
theorem test_wf_putb_value_refused : (Instr.putb 0#4 0x100#32).wf = false := by decide
theorem test_wf_enc6_extra_refused : (Instr.enc6 1#4 0#32).wf = false := by decide
theorem test_wf_enc6_value_refused : (Instr.enc6 0#4 64#32).wf = false := by decide
theorem test_wf_enc8_value_refused : (Instr.enc8 15#4 0x100#32).wf = false := by decide
theorem test_wf_enc12_extra_refused : (Instr.enc12 1#4 1#32).wf = false := by decide
theorem test_wf_enc12_value_refused : (Instr.enc12 0#4 0x1000#32).wf = false := by decide
theorem test_wf_enc16_extra_refused : (Instr.enc16 4#4 1#32).wf = false := by decide
theorem test_wf_enc16_value_refused : (Instr.enc16 3#4 0x10000#32).wf = false := by decide
theorem test_wf_ckapp_end_refused : (Instr.ckapp 0#16 1#16).wf = false := by decide
theorem test_wf_crcupdb_extra_refused : (Instr.crcupdb 1#4 0#32).wf = false := by decide
theorem test_wf_crcupdb_value_refused : (Instr.crcupdb 0#4 0x100#32).wf = false := by decide
theorem test_wf_crcupdw_extra_refused : (Instr.crcupdw 1#4 1#32).wf = false := by decide
theorem test_wf_crcvfy_extra_refused : (Instr.crcvfy 1#4 1#32).wf = false := by decide
theorem test_wf_asmrd_width_refused : (Instr.asmrd 3#2 0#6 0#6).wf = false := by decide
theorem test_wf_asmwr_width_refused : (Instr.asmwr 3#2 0#6 0#6).wf = false := by decide
theorem test_wf_accepts_limits : [Instr.setpos 0#4 0xFFFF#32, .putb 0#4 0xFF#32, .enc6 0#4 63#32, .enc8 15#4 255#32,
    .enc12 0#4 4095#32, .enc16 3#4 65535#32, .enc32 15#4 0xFFFFFFFF#32, .ckapp 65535#16 0#16, .asmrd 2#2 63#6 63#6].all
      Instr.wf = true := by decide

/-! ## Decode: a word written out from the spec's encoding for every command -/

theorem test_decode_system : decode 0x0000000000000000#64 = .ok .nop ∧ decode 0x0100000000000000#64 = .ok .reset ∧
    decode 0x0200000000000000#64 = .ok .touch := by decide
theorem test_decode_buffer : decode 0x0800000000000000#64 = .ok .clrb ∧
    decode 0x0900000000000025#64 = .ok (.setpos 0#4 37#32) ∧ decode 0x0A00000000000024#64 = .ok (.putb 0#4 0x24#32) ∧
    decode 0x0B00000000000000#64 = .ok .getb ∧ decode 0x0C20100300000064#64 = .ok (.tabw 2#4 1#6 3#12 100#32) ∧
    decode 0x0CF3FFFFFFFFFFFF#64 = .ok (.tabw 15#4 63#6 0xFFF#12 0xFFFFFFFF#32) := by decide
theorem test_decode_encodes : decode 0x100000000000003F#64 = .ok (.enc6 0#4 63#32) ∧
    decode 0x1150000000000041#64 = .ok (.enc8 5#4 0x41#32) ∧ decode 0x1200000000000ABC#64 = .ok (.enc12 0#4 0xABC#32) ∧
    decode 0x1320000000001234#64 = .ok (.enc16 2#4 0x1234#32) ∧
    decode 0x14A00000DEADBEEF#64 = .ok (.enc32 10#4 0xDEADBEEF#32) := by decide
theorem test_decode_decodes : decode 0x1800000000000000#64 = .ok .dec6 ∧ decode 0x1900000000000000#64 = .ok .dec8 ∧
    decode 0x1A00000000000000#64 = .ok .dec12 ∧ decode 0x1B00000000000000#64 = .ok .dec16 ∧
    decode 0x1C00000000000000#64 = .ok .dec32 := by decide
theorem test_decode_checksum : decode 0x20000003000F0000#64 = .ok (.cksum 3#16 15#16) ∧
    decode 0x2100000300000000#64 = .ok (.ckapp 3#16 0#16) ∧ decode 0x2100000000010000#64 = .ok (.ckapp 0#16 1#16) ∧
    decode 0x22000003000F0000#64 = .ok (.ckvfy 3#16 15#16) := by decide
theorem test_decode_crc : decode 0x3000000000000000#64 = .ok .crcinit ∧
    decode 0x3100000000000031#64 = .ok (.crcupdb 0#4 0x31#32) ∧
    decode 0x32000000CBF43926#64 = .ok (.crcupdw 0#4 0xCBF43926#32) ∧
    decode 0x3300000000110000#64 = .ok (.crcupdr 0#16 17#16) ∧ decode 0x3400000000000000#64 = .ok .crcfin ∧
    decode 0x35000000CBF43926#64 = .ok (.crcvfy 0#4 0xCBF43926#32) := by decide
theorem test_decode_frame : decode 0x4000110200000000#64 = .ok (.asmrd 0#2 17#6 2#6) ∧
    decode 0x41023F3F00000000#64 = .ok (.asmwr 2#2 63#6 63#6) ∧ decode 0x4800000000000000#64 = .ok .parserd ∧
    decode 0x4900000000000000#64 = .ok .parsewr := by decide

/-- R98: the ends of every gap in the opcode map. -/
theorem test_decode_reserved_opcodes : [0x03#8, 0x07#8, 0x0D#8, 0x0F#8, 0x15#8, 0x17#8, 0x1D#8, 0x1F#8, 0x23#8, 0x2F#8,
    0x36#8, 0x3F#8, 0x42#8, 0x47#8, 0x4A#8, 0x7F#8, 0xFF#8].all (fun o =>
      decode (o ++ 0#56) == .error .reservedOpcode) = true := by decide

/-- R99: rows 3, 10 and 11 of program P7, bit 50 of `TABW`, and the lowest and highest reserved bit of every format. -/
theorem test_decode_reserved_bits : [0x0000000000000001#64, 0x1100000100000000#64, 0x0100000000000001#64,
    0x0C04000000000000#64, 0x0C08000000000000#64, 0x0080000000000000#64, 0x1108000000000000#64, 0x2000000000000001#64,
    0x2080000000000000#64, 0x2001000000000000#64, 0x2000000000008000#64, 0x4000000000000001#64, 0x4080000000000000#64,
    0x4004000000000000#64, 0x4000C00000000000#64, 0x400000C000000000#64, 0x4000000080000000#64].all (fun w =>
      decode w == .error .reservedBits) = true := by decide

theorem test_decodeTableWord : decodeTableWord 64 0x1420000000000064 = some (.enc32 2#4 100#32) ∧
    decodeTableWord 64 0x7F00000000000000 = none := by decide

theorem test_withFetchWord_runs_the_word :
    step (State.reset.withFetchWord 64 0x0A00000000000024) = exec (.putb 0#4 0x24#32) State.reset := rfl

/-! ## One step each -/

/-- R33 and P7: the bits of `STATUS`. -/
theorem test_status_bits : ({ State.reset with err := 13#4, faultBit := true } : State).status = 0x1D#8 := by decide

theorem test_nop_clears_err : ends .nop { State.reset with err := 2#4 } (fun t => t == State.reset) = true := by
  decide
theorem test_nop_keeps_fault : ends .nop { State.reset with err := 13#4, faultBit := true }
    (fun t => t.status == 0x10#8) = true := by decide
theorem test_reset_clears : ends .reset { State.reset with seq := 17#6, faultBit := true, a := 5#32, crc := 0#32 }
    (fun t => t == State.reset) = true := by decide
theorem test_reset_keeps_params :
    ends .reset { State.reset with params := { Params.default with crcInit := 7#32 }, len := 0#16 }
      (fun t => t.crc == 7#32) = true := by decide
theorem test_touch_wraps : ends .touch { State.reset with seq := 63#6 } (fun t => t.a == 63#32 && t.seq == 0#6) = true := by
  decide
theorem test_clrb : ends .clrb (holding "$R4050103050709u?") (fun t => t.len == 0#16 && t.pos == 0#16 &&
    hostRead 1#2 0#16 t == 0#32) = true := by decide
theorem test_setpos_at_len : ends (.setpos 0#4 7#32) (holding "$R400w?") (fun t => t.pos == 7#16) = true := by decide
theorem test_setpos_past_len : raises (.setpos 0#4 8#32) (holding "$R400w?") 14#4 = true := by decide
theorem test_putb_inside : ends (.putb 0#4 0x58#32) (holdingAt "$R400w?" 2#16) (fun t =>
    contents t == ascii "$RX00w?" && t.pos == 3#16 && t.len == 7#16) = true := by decide
theorem test_putb_full : raises (.putb 0#4 0x30#32) { State.reset with pos := 512#16, len := 512#16 } 14#4 = true := by
  decide
theorem test_getb : ends .getb (holdingAt "$R400w?" 5#16) (fun t => t.a == 0x77#32 && t.pos == 6#16) = true := by decide
theorem test_getb_at_end : raises .getb (holding "$R400w?") 14#4 = true := by decide
theorem test_tabw : ends (.tabw 2#4 1#6 3#12 100#32) State.reset (fun t => hostRead 2#2 0x01#16 t == 3#32 &&
    hostRead 2#2 0x41#16 t == 100#32 && hostRead 2#2 0x81#16 t == 2#32 && hostRead 2#2 0xC1#16 t == 0#32 &&
    hostRead 2#2 0x101#16 t == 0#32) = true := by decide
theorem test_tabw_last : ends (.tabw 15#4 63#6 0xFFF#12 0xFFFFFFFF#32) State.reset (fun t =>
    t.tab[63] == ⟨4095#12, 0xFFFFFFFF#32, 15#4⟩ && t.tab[62] == ⟨0#12, 0#32, 0#4⟩) = true := by decide
theorem test_enc6 : ends (.enc6 0#4 63#32) State.reset (fun t => contents t == ascii "-") = true := by decide
theorem test_enc6_too_big : raises (.enc6 0#4 64#32) State.reset 13#4 = true := by decide
theorem test_enc8_extra : ends (.enc8 5#4 0x41#32) State.reset (fun t => contents t == ascii "l1" && t.pos == 2#16) = true :=
  by decide
theorem test_enc8_top : ends (.enc8 15#4 200#32) State.reset (fun t => contents t == ascii "-8") = true := by decide
theorem test_enc12 : ends (.enc12 0#4 0xABC#32) (holdingAt "$R4050103050709u?" 5#16) (fun t =>
    contents t == ascii "$R405GY03050709u?" && t.pos == 7#16 && t.len == 17#16) = true := by decide
theorem test_enc12_extra : raises (.enc12 1#4 1#32) State.reset 13#4 = true := by decide
theorem test_enc16 : ends (.enc16 2#4 0x1234#32) State.reset (fun t => contents t == ascii "x8Q") = true := by decide
theorem test_enc16_room : raises (.enc16 0#4 1#32) { State.reset with pos := 510#16, len := 510#16 } 14#4 = true := by
  decide
theorem test_enc32 : ends (.enc32 10#4 0xDEADBEEF#32) State.reset (fun t => contents t == ascii "HuHrXL") = true := by
  decide
theorem test_enc32_bit30 : ends (.enc32 0#4 0x40000000#32) State.reset (fun t => contents t == ascii "100000") = true := by
  decide
theorem test_dec6 : ends .dec6 (holdingAt "u?" 0#16) (fun t => t.a == 30#32 && t.x == 0#4 && t.pos == 1#16) = true := by
  decide
theorem test_dec6_outside : ["=", "?", " ", "/", ":", "@", "[", "`", ","].all (fun c =>
    ends .dec6 { holdingAt c 0#16 with x := 9#4 } fun t => t.a == 0#32 && t.x == 0#4) = true := by decide
theorem test_dec8_mixed : ends .dec8 (holdingAt "GY" 0#16) (fun t => t.a == 0xBC#32 && t.x == 0xA#4) = true := by decide
theorem test_dec8_empty : raises .dec8 State.reset 14#4 = true := by decide
theorem test_dec12_mixed : ends .dec12 (holdingAt "38" 0#16) (fun t => t.a == 200#32 && t.x == 0#4) = true := by decide
theorem test_dec16 : ends .dec16 (holdingAt "x8Q" 0#16) (fun t => t.a == 0x1234#32 && t.x == 2#4) = true := by decide
theorem test_dec16_outside : ends .dec16 (holdingAt "$R4" 0#16) (fun t => t.a == 0x0D44#32 && t.x == 0#4) = true := by
  decide
theorem test_dec32 : ends .dec32 (holdingAt "E00oqw" 0#16) (fun t => t.a == 100000#32 && t.x == 10#4 && t.pos == 6#16) = true
    := by decide
theorem test_cksum : ends (.cksum 3#16 15#16) (holding "$R4050103050709u?") (fun t => t.ck == 30#6) = true := by decide
theorem test_cksum_empty_range : ends (.cksum 17#16 17#16) { holding "$R4050103050709u?" with ck := 1#6 }
    (fun t => t.ck == 0#6 && t.err == 0#4) = true := by decide
theorem test_ckapp : ends (.ckapp 3#16 0#16) (holding "$R4050103050709") (fun t =>
    contents t == ascii "$R4050103050709u" && t.ck == 30#6 && t.pos == 16#16) = true := by decide
theorem test_ckapp_start_past_cursor : raises (.ckapp 1#16 0#16) State.reset 14#4 = true := by decide
theorem test_ckvfy : ends (.ckvfy 3#16 15#16) (holding "$R4050103050709u?") (fun t => t.ck == 30#6 && t.err == 0#4) = true
    := by decide
theorem test_ckvfy_differs : ends (.ckvfy 3#16 16#16) (holding "$R4050103050709u?") (fun t =>
    t.ck == 19#6 && t.err == 2#4 && !t.faultBit) = true := by decide
theorem test_crcinit : ends .crcinit { State.reset with crc := 5#32 } (fun t => t == State.reset) = true := by decide
theorem test_crcupdb : ends (.crcupdb 0#4 0x31#32) State.reset (fun t => t.crc == 0x7C231048#32) = true := by decide
theorem test_crcupdw : ends (.crcupdw 0#4 0xCBF43926#32) { State.reset with crc := 0x340BC6D9#32 } (fun t =>
    t.crc == 0xDEBB20E3#32) = true := by decide +kernel
theorem test_crcupdw_order : ends (.crcupdw 0#4 0x39383736#32) { State.reset with crc := 0x340AC5E3#32 } (fun t =>
    t.crc == 0x340BC6D9#32) = true := by decide +kernel
theorem test_crcupdr : ends (.crcupdr 0#16 4#16) (holding "123456789") (fun t => t.crc == 0x641C1F5C#32) = true := by decide +kernel
theorem test_crcupdr_empty_buffer : raises (.crcupdr 0#16 1#16) State.reset 14#4 = true := by decide
theorem test_crcfin : ends .crcfin { State.reset with crc := 0x340BC6D9#32 } (fun t =>
    t.a == 0xCBF43926#32 && t.crc == 0x340BC6D9#32) = true := by decide
theorem test_crcvfy : ends (.crcvfy 0#4 0xCBF43926#32) { State.reset with crc := 0x340BC6D9#32 } (fun t => t.err == 0#4) = true
    := by decide
theorem test_crcvfy_differs : failsWith (.crcvfy 0#4 0#32) { State.reset with crc := 0x340BC6D9#32 } 8#4 = true := by decide
theorem test_asmrd : ends (.asmrd 0#2 17#6 2#6) (withTable [⟨0x123#12, 0#32, 0#4⟩, ⟨0x456#12, 0#32, 0#4⟩]) (fun t =>
    contents t == ascii "$R1h24zhmt?" && t.pos == 11#16) = true := by decide
theorem test_asmrd_empty : ends (.asmrd 2#2 0#6 0#6) State.reset (fun t => contents t == ascii "$R400w?") = true := by
  decide
theorem test_asmwr : ends (.asmwr 0#2 0#6 4#6) (withTable [⟨10#12, 1#32, 0#4⟩, ⟨11#12, 2#32, 0#4⟩, ⟨12#12, 20#32, 0#4⟩,
    ⟨13#12, 200#32, 9#4⟩]) (fun t => contents t == ascii "$W1040a010b020c0k0d38T?") = true := by decide
theorem test_asmwr_value_too_wide : raises (.asmwr 0#2 0#6 1#6) (withTable [⟨5#12, 256#32, 0#4⟩]) 13#4 = true := by decide
theorem test_parserd : ends .parserd (parseStart "$R2=92x8Q---P") (fun t => t.fop == 0x52#8 && t.fwidth == 2#3 &&
    t.fseq == 9#6 && t.fcount == 2#6 && t.tab[0] == ⟨0x700#12, 0x1234#32, 2#4⟩ && t.tab[1] == ⟨0x701#12, 0xFFFF#32, 3#4⟩ &&
    t.tab[2] == ⟨0x702#12, 0xAAAA0002#32, 7#4⟩) = true := by decide
theorem test_parserd_failures : [("$R4=05", 1#4), ("$R4=P0!", 2#4), ("#R4=00w", 3#4), ("$R4?00w", 3#4), ("$W4=00w", 4#4),
    ("$R3=00w", 5#4), ("$R4=020000013", 6#4), ("$R4=01000001000002A", 7#4)].all (fun c =>
      failsWith .parserd (parseStart c.1) c.2) = true := by decide
theorem test_parsewr : ends .parsewr (parseStart "$W1=0401024k38N") (fun t => t.fop == 0x57#8 && t.fwidth == 1#3 &&
    t.fcount == 4#6 && t.tab[2] == ⟨0x702#12, 0xAAAA0002#32, 1#4⟩ && t.tab[3] == ⟨0x703#12, 0xAAAA0003#32, 0#4⟩) = true := by
  decide
theorem test_parsewr_wrong_op : failsWith .parsewr (parseStart "$R4=00w") 4#4 = true := by decide

/-! ## Text and host sequences -/

theorem test_text : text (.enc32 2#4 100#32) = some "ENC32 100, x=2" ∧
    text (.asmrd 2#2 0#6 5#6) = some "ASMRD w=4, seq=0, count=5" ∧ text (.ckvfy 3#16 15#16) = some "CKVFY 3, 15" ∧
    text .dec32 = some "DEC32" := by decide
theorem test_requestPath_copies_seq :
    (match requestPath (fillTable [(0x123#12, 0#32), (0x456#12, 0#32)]) (fun q => .asmrd 0#2 q 2#6)
        { State.reset with seq := 17#6 } with
      | .next t => readOut t == ascii "$R1h24zhmt?" && t.seq == 18#6
      | .fault _ => false
      | .refused _ => false) = true := by decide
theorem test_password_bytes : roundBytes [0, 3, 1, 4, 2, 5, 6] 123 0x11223367#32 =
    [0x31#8, 0x67#8, 0x32#8, 0x33#8, 0x33#8, 0x22#8, 0x11#8] := by decide
/-- R204: the first, second and last of the masks for 123. -/
theorem test_decrypt_masks : (decryptGuid (Vector.replicate 16 0#8) 123).toList.take 2 = [0x7B#8, 0xF6#8] ∧
    (decryptGuid (Vector.replicate 16 0#8) 123)[15] = 0xB0#8 := by decide
/-- R203: `P` and `S` for 0x11223367. -/
theorem test_alpha_code : alphaCode (Vector.replicate 7 0#8) 0x11223367#32 = ascii "PS" := by decide
theorem test_hash_result : hashResult .be 0x11223344#32 = 0x44332211#32 := by decide


/-! ## Witnesses: for each statement with hypotheses, a concrete case that meets them, clause by clause -/

/-- The state after reset with one command word presented. -/
def presented (w : CmdWord) : State := State.reset.presentFirst w

/-- The state after reset with `n` in `POS` and `LEN`. -/
def filled (n : BitVec 16) : State := { State.reset with pos := n, len := n }

/-- A state whose `LEN` is 1, with the byte above it chosen: it is not observable. -/
def withInvalidByte (b : Byte) : State :=
  { State.reset with len := 1#16, buf := Memory.writeBytes [] 0 [0x30#8, b], inputs := [.command 0x0A00000000000041#64] }

theorem inv_reset : Inv State.reset where
  params := by decide
  pos_le_len := by decide
  len_le_cap := by decide
  buf_wf := by decide
  buf_below := by decide
  err_produced := Or.inl (by decide)
  fault_recorded := by decide
  fop_legal := by decide
  fwidth_legal := by decide

/-- A state at the limits of the invariant: a full buffer, a fault recorded, a parsed frame. -/
def atLimits : State :=
  { State.reset with pos := 512#16, len := 512#16, buf := Memory.write [] 511 0xFF#8, err := 14#4, faultBit := true
                     fop := 0x57#8, fwidth := 4#3, inputs := [.command 0x1000000000000000#64] }

theorem inv_atLimits : Inv atLimits where
  params := by decide
  pos_le_len := by decide
  len_le_cap := by decide
  buf_wf := by decide
  buf_below := by decide
  err_produced := Or.inr (by decide)
  fault_recorded := by decide
  fop_legal := by decide
  fwidth_legal := by decide

theorem inv_withInvalidByte (b : Byte) : b = 0x41#8 ∨ b = 0x42#8 → Inv (withInvalidByte b) := by
  rintro (rfl | rfl) <;>
  exact ⟨by decide, by decide, by decide, by decide, by decide, Or.inl (by decide), by decide, by decide, by decide⟩

theorem witness_EncodeOfDecodeIsTheWord :
    decode 0x0CF3FFFFFFFFFFFF#64 = .ok (.tabw 15#4 63#6 0xFFF#12 0xFFFFFFFF#32) := by decide
theorem witness_DecodeAgreesWithOpcodeTable :
    ⟨"TABW", 0x0C00000000000000#64, 0xFF0C000000000000#64⟩ ∈ opcodeTable := by decide
theorem witness_ReservedOpcodeRaisesIllegal : ∀ o ∈ [0x03#8, 0x07#8, 0x0D#8, 0x0F#8, 0x15#8, 0x17#8, 0x1D#8, 0x1F#8,
    0x23#8, 0x2F#8, 0x36#8, 0x3F#8, 0x42#8, 0x47#8, 0x4A#8, 0xFF#8],
    (∃ n, n = ((o ++ 0#56 : CmdWord).extractLsb' 56 8).toNat ∧
      ((0x03 ≤ n ∧ n ≤ 0x07) ∨ (0x0D ≤ n ∧ n ≤ 0x0F) ∨ (0x15 ≤ n ∧ n ≤ 0x17) ∨ (0x1D ≤ n ∧ n ≤ 0x1F) ∨
       (0x23 ≤ n ∧ n ≤ 0x2F) ∨ (0x36 ≤ n ∧ n ≤ 0x3F) ∨ (0x42 ≤ n ∧ n ≤ 0x47) ∨ (0x4A ≤ n ∧ n ≤ 0xFF))) := by
  simp only [exists_eq_left]; decide
theorem witness_ReservedBitRaisesIllegal :
    ⟨"TABW", 0x0C00000000000000#64, 0xFF0C000000000000#64⟩ ∈ opcodeTable ∧
    (0x0C04000000000000#64).extractLsb' 56 8 = (0x0C00000000000000#64).extractLsb' 56 8 ∧
    ∃ k, k < 56 ∧ (0xFF0C000000000000#64).getLsbD k = true ∧ (0x0C04000000000000#64).getLsbD k = true :=
  ⟨by decide, by decide, 50, by decide⟩
theorem witness_StepRunsTheDecodedCommand :
    (presented 0x0A00000000000024#64).inputs = .command 0x0A00000000000024#64 :: [] ∧
    decode 0x0A00000000000024#64 = .ok (.putb 0#4 0x24#32) := by decide
theorem witness_ResetInputActsAsTheResetCommand :
    ({ atLimits with inputs := [.resetInput] } : State).inputs = .resetInput :: [] ∧ State.reset.inputs = [] := by decide
theorem witness_SimultaneousCommandsHaveNoStep :
    ({ State.reset with inputs := [.together 0#64 0#64] } : State).inputs = .together 0#64 0#64 :: [] := by decide
theorem witness_StepKeepsTheBlockInvariant : Inv atLimits ∧ ∃ t, step atLimits = .next t := ⟨inv_atLimits, _, rfl⟩
theorem witness_ResetHasTheBlockInvariant : ({ Params.default with bufcap := 511#16 } : Params).wf = true ∧
    ({ Params.default with bufcap := 65535#16 } : Params).wf = true := by decide
theorem witness_SerialisedRunsNeverStop : Inv atLimits ∧ Serialised atLimits.inputs := ⟨inv_atLimits, trivial⟩
theorem witness_InvalidBytesAreUnobservable : Inv (withInvalidByte 0x41#8) ∧ Inv (withInvalidByte 0x42#8) ∧
    SameButInvalid (withInvalidByte 0x41#8) (withInvalidByte 0x42#8) ∧
    withInvalidByte 0x41#8 ≠ withInvalidByte 0x42#8 ∧ ∃ t, step (withInvalidByte 0x41#8) = .next t :=
  ⟨inv_withInvalidByte _ (Or.inl rfl), inv_withInvalidByte _ (Or.inr rfl), ⟨rfl, by decide⟩, by decide, _, rfl⟩
theorem witness_RegistersAreWrittenOnlyByTheirCommands : ∃ t, exec .touch State.reset = .next t ∧ t.seq ≠ 0#6 :=
  ⟨_, rfl, by decide⟩
theorem witness_BytesOutsideTheStoreAreKept : (holdingAt "$R400w?" 2#16).buf.wf = true ∧
    (∃ t, exec (.enc8 0#4 1#32) (holdingAt "$R400w?" 2#16) = .next t) ∧
    storeSpan (.enc8 0#4 1#32) (holdingAt "$R400w?" 2#16) = (2, 2) ∧ 1 < 2 ∧ 2 + 2 ≤ 4 :=
  ⟨by decide, ⟨_, rfl⟩, by decide, by decide, by decide⟩
theorem witness_TableIsWrittenOnlyByItsCommands :
    (∃ t, exec (.tabw 0#4 63#6 1#12 0#32) State.reset = .next t ∧ t.tab[(63 : Fin 64)] ≠ State.reset.tab[(63 : Fin 64)]) ∧
    (∃ t, exec .parserd (parseStart "$R1=31!9+") = .next t ∧
      t.tab[(0 : Fin 64)] ≠ (parseStart "$R1=31!9+").tab[(0 : Fin 64)]) ∧
    ∃ t, exec .parsewr (parseStart "$W1=0401024k38N") = .next t ∧
      t.tab[(3 : Fin 64)] ≠ (parseStart "$W1=0401024k38N").tab[(3 : Fin 64)] :=
  ⟨⟨_, rfl, by decide⟩, ⟨_, rfl, by decide⟩, ⟨_, rfl, by decide⟩⟩
theorem witness_OutcomeCodesOfEachCommand :
    (∃ t, exec .parserd (parseStart "$R4=05") = .next t ∧ t.err = 1#4) ∧
    (∃ t, exec (.ckvfy 3#16 16#16) (holding "$R4050103050709u?") = .next t ∧ t.err = 2#4) ∧
    (∃ t, exec .parsewr (parseStart "$W1=1w") = .next t ∧ t.err = 1#4) ∧
    (∃ t, exec .parserd (parseStart "$R4=01000001000002A") = .next t ∧ t.err = 7#4) ∧
    (∃ t, exec (.crcvfy 0#4 1#32) State.reset = .next t ∧ t.err = 8#4) ∧
    (∃ t, exec (.enc6 0#4 64#32) State.reset = .next t ∧ t.err = 13#4) ∧
    (∃ t, exec .getb State.reset = .next t ∧ t.err = 14#4) ∧ Instr.nop.mnemonic = "NOP" :=
  ⟨⟨_, rfl, by decide⟩, ⟨_, rfl, by decide⟩, ⟨_, rfl, by decide⟩, ⟨_, rfl, by decide⟩, ⟨_, rfl, by decide⟩,
    ⟨_, rfl, by decide⟩, ⟨_, rfl, by decide⟩, rfl⟩
theorem witness_FailuresAndFaultsChangeOnlyStatus :
    (∃ t, exec .parserd State.reset = .next t ∧ 1 ≤ t.err.toNat ∧ t.err.toNat ≤ 8) ∧
    (∃ t, exec (.crcvfy 0#4 1#32) State.reset = .next t ∧ t.err.toNat = 8) ∧
    (∃ t, exec (.ckapp 0#16 1#16) State.reset = .next t ∧ 12 ≤ t.err.toNat ∧ t.err.toNat ≤ 14) ∧
    ∃ t, exec .dec8 State.reset = .next t ∧ t.err.toNat = 14 :=
  ⟨⟨_, rfl, by decide⟩, ⟨_, rfl, by decide⟩, ⟨_, rfl, by decide⟩, ⟨_, rfl, by decide⟩⟩
theorem witness_FaultBitIsSticky : (∃ t, exec .nop atLimits = .next t) ∧ ∃ t, exec .reset atLimits = .next t :=
  ⟨⟨_, rfl⟩, ⟨_, rfl⟩⟩
theorem witness_SetposResult : ((1#4 ≠ 0#4) ∧ 2 ^ 16 ≤ (0x10000#32).toNat) ∧
    ((0xFFFF#32).toNat < 2 ^ 16 ∧ (holding "$R400w?").len.toNat < (8#32).toNat) ∧
    (7#32).toNat ≤ (holding "$R400w?").len.toNat := by decide
theorem witness_PutbResult : (8#4 ≠ 0#4 ∧ 2 ^ 8 ≤ (0x100#32).toNat) ∧
    ((0xFF#32).toNat < 2 ^ 8 ∧ (filled 512#16).params.bufcap.toNat ≤ (filled 512#16).pos.toNat) ∧
    ((filled 511#16).pos.toNat < (filled 511#16).params.bufcap.toNat ∧ (filled 511#16).buf.wf = true) := by decide
theorem witness_GetbResult : (holding "$R400w?").len.toNat ≤ (holding "$R400w?").pos.toNat ∧
    (holdingAt "$R400w?" 6#16).pos.toNat < (holdingAt "$R400w?" 6#16).len.toNat := by decide
theorem witness_Enc6Result : 64 ≤ (64#32).toNat ∧ 1#4 ≠ 0#4 ∧ (63#32).toNat < 64 ∧
    (filled 512#16).params.bufcap.toNat < (filled 512#16).pos.toNat + 1 ∧
    (filled 511#16).pos.toNat + 1 ≤ (filled 511#16).params.bufcap.toNat ∧ (filled 511#16).buf.wf = true := by decide
theorem witness_Enc8Result : 256 ≤ (256#32).toNat ∧ (255#32).toNat < 256 ∧
    (filled 511#16).params.bufcap.toNat < (filled 511#16).pos.toNat + 2 ∧
    (filled 510#16).pos.toNat + 2 ≤ (filled 510#16).params.bufcap.toNat ∧ (filled 510#16).buf.wf = true := by decide
theorem witness_Enc12Result : 4096 ≤ (4096#32).toNat ∧ 1#4 ≠ 0#4 ∧ (4095#32).toNat < 4096 ∧
    (filled 511#16).params.bufcap.toNat < (filled 511#16).pos.toNat + 2 ∧
    (filled 510#16).pos.toNat + 2 ≤ (filled 510#16).params.bufcap.toNat ∧ (filled 510#16).buf.wf = true := by decide
theorem witness_Enc16Result : 65536 ≤ (65536#32).toNat ∧ 4 ≤ (4#4).toNat ∧ (65535#32).toNat < 65536 ∧ (3#4).toNat < 4 ∧
    (filled 510#16).params.bufcap.toNat < (filled 510#16).pos.toNat + 3 ∧
    (filled 509#16).pos.toNat + 3 ≤ (filled 509#16).params.bufcap.toNat ∧ (filled 509#16).buf.wf = true := by decide
theorem witness_Enc32Result : (filled 507#16).params.bufcap.toNat < (filled 507#16).pos.toNat + 6 ∧
    (filled 506#16).pos.toNat + 6 ≤ (filled 506#16).params.bufcap.toNat ∧ (filled 506#16).buf.wf = true := by decide
theorem witness_Dec6Result : State.reset.len.toNat ≤ State.reset.pos.toNat ∧
    (holdingAt "u" 0#16).pos.toNat < (holdingAt "u" 0#16).len.toNat := by decide
theorem witness_Dec8Result : (holdingAt "GY" 1#16).len.toNat < (holdingAt "GY" 1#16).pos.toNat + 2 ∧
    (holdingAt "GY" 0#16).pos.toNat + 2 ≤ (holdingAt "GY" 0#16).len.toNat ∧
    0xABC#12 = val ((holdingAt "GY" 0#16).buf.read 0) ++ val ((holdingAt "GY" 0#16).buf.read 1) := by decide
theorem witness_Dec12Result : (holdingAt "38" 1#16).len.toNat < (holdingAt "38" 1#16).pos.toNat + 2 ∧
    (holdingAt "38" 0#16).pos.toNat + 2 ≤ (holdingAt "38" 0#16).len.toNat ∧
    200#12 = val ((holdingAt "38" 0#16).buf.read 0) ++ val ((holdingAt "38" 0#16).buf.read 1) := by decide
theorem witness_Dec16Result : (holdingAt "x8Q" 1#16).len.toNat < (holdingAt "x8Q" 1#16).pos.toNat + 3 ∧
    (holdingAt "x8Q" 0#16).pos.toNat + 3 ≤ (holdingAt "x8Q" 0#16).len.toNat ∧
    0x21234#18 = val ((holdingAt "x8Q" 0#16).buf.read 0) ++ val ((holdingAt "x8Q" 0#16).buf.read 1) ++
      val ((holdingAt "x8Q" 0#16).buf.read 2) := by decide
theorem witness_Dec32Result : (holdingAt "HuHrXL" 1#16).len.toNat < (holdingAt "HuHrXL" 1#16).pos.toNat + 6 ∧
    (holdingAt "HuHrXL" 0#16).pos.toNat + 6 ≤ (holdingAt "HuHrXL" 0#16).len.toNat ∧
    0xADEADBEEF#36 = val ((holdingAt "HuHrXL" 0#16).buf.read 0) ++ val ((holdingAt "HuHrXL" 0#16).buf.read 1) ++
      val ((holdingAt "HuHrXL" 0#16).buf.read 2) ++ val ((holdingAt "HuHrXL" 0#16).buf.read 3) ++
      val ((holdingAt "HuHrXL" 0#16).buf.read 4) ++ val ((holdingAt "HuHrXL" 0#16).buf.read 5) := by decide
theorem witness_MixedWidthDecodes : (holdingAt "-8" 0#16).pos.toNat + 2 ≤ (holdingAt "-8" 0#16).len.toNat ∧
    (holdingAt "-8" 0#16).buf.readBytes 0 2 = pack .w8 ((200#8).setWidth 32) 15#4 ∧
    (holdingAt "GY" 0#16).buf.readBytes 0 2 = pack .w12 ((0xABC#12).setWidth 32) 0#4 := by decide
theorem witness_EncodeThenDecodeGivesTheValueBack : (0xFFFFFFFF#32).toNat < 2 ^ CodecWidth.w32.bits ∧
    (15#4).toNat < 2 ^ CodecWidth.w32.xbits ∧ (63#32).toNat < 2 ^ CodecWidth.w6.bits ∧
    (0#4).toNat < 2 ^ CodecWidth.w6.xbits ∧
    (filled 506#16).pos.toNat + CodecWidth.w32.nsym ≤ (filled 506#16).params.bufcap.toNat ∧
    (filled 506#16).buf.wf = true := by decide
theorem witness_PackAndUnpackRoundTrip : (65535#32).toNat < 2 ^ CodecWidth.w16.bits ∧
    (3#4).toNat < 2 ^ CodecWidth.w16.xbits ∧ (ascii "x8Q").length = CodecWidth.w16.nsym := by decide
theorem witness_AlphabetAndItsInverse : (0#6).toNat < 10 ∧ (9#6).toNat < 10 ∧ 10 ≤ (10#6).toNat ∧ (35#6).toNat < 36 ∧
    36 ≤ (36#6).toNat ∧ (61#6).toNat < 62 := by decide
theorem witness_CksumResult : ¬ ((15#16).toNat ≤ (3#16).toNat ∧ (3#16).toNat ≤ (holding "$R400w?").len.toNat) ∧
    ¬ ((3#16).toNat ≤ (8#16).toNat ∧ (8#16).toNat ≤ (holding "$R400w?").len.toNat) ∧
    (7#16).toNat ≤ (7#16).toNat ∧ (7#16).toNat ≤ (holding "$R400w?").len.toNat := by decide
theorem witness_CkappResult : 1#16 ≠ 0#16 ∧ State.reset.pos.toNat < (1#16).toNat ∧
    (filled 512#16).params.bufcap.toNat ≤ (filled 512#16).pos.toNat ∧
    ((0#16).toNat ≤ (filled 511#16).pos.toNat ∧ (filled 511#16).pos.toNat < (filled 511#16).params.bufcap.toNat ∧
      (filled 511#16).buf.wf = true) := by decide
theorem witness_CkvfyResult : ¬ ((7#16).toNat ≤ (7#16).toNat ∧ (7#16).toNat < (holding "$R400w?").len.toNat) ∧
    (6#16).toNat ≤ (6#16).toNat ∧ (6#16).toNat < (holding "$R400w?").len.toNat := by decide
theorem witness_AppendedChecksumVerifies : (511#16).toNat ≤ (filled 511#16).pos.toNat ∧
    (filled 511#16).pos.toNat < (filled 511#16).params.bufcap.toNat ∧ (filled 511#16).buf.wf = true := by decide
theorem witness_WhatTheChecksumDetects : (ascii "05").Perm (ascii "50") ∧
    (64 : Int) ∣ ((0x70#8).toNat : Int) - ((0x30#8).toNat : Int) := by decide
theorem witness_AsmrdResult : FrameWidth.ofField 2#2 = some .four ∧
    ({ Params.default with bufcap := 132#16 } : Params).bufcap.toNat < 7 + 2 * (63#6).toNat ∧
    7 + 2 * (63#6).toNat ≤ ({ Params.default with bufcap := 133#16 } : Params).bufcap.toNat ∧
    State.reset.buf.wf = true := by decide
theorem witness_AsmwrResult : FrameWidth.ofField 0#2 = some .one ∧ FrameWidth.ofField 2#2 = some .four ∧
    FrameWidth.one.codec.nsym = 2 ∧
    ((0 : Fin 64).val < (1#6).toNat ∧
      2 ^ (8 * FrameWidth.one.bytes) ≤ (withTable [⟨5#12, 256#32, 0#4⟩]).tab[(0 : Fin 64)].val.toNat) ∧
    (∀ e : Fin 64, e.val < (1#6).toNat →
      (withTable [⟨5#12, 255#32, 0#4⟩]).tab[e].val.toNat < 2 ^ (8 * FrameWidth.one.bytes)) ∧
    510 < 7 + (63#6).toNat * (2 + FrameWidth.four.codec.nsym) ∧
    7 + (63#6).toNat * (2 + FrameWidth.four.codec.nsym) ≤ State.reset.params.bufcap.toNat := by decide
theorem witness_AssembledFramesVerify : State.reset.buf.wf = true ∧
    ∃ t, exec (.asmwr 2#2 63#6 0#6) State.reset = .next t ∧ t.err = 0#4 := ⟨by decide, _, rfl, by decide⟩
theorem witness_ParseOutcomesInOrder : (parseStart "$R4=020000013").len.toNat = 13 ∧
    (parseStart "$R4=020000013").buf.read 2 = 0x34#8 ∧
    7 + (val ((parseStart "$R4=020000013").buf.read 5)).toNat * 6 = 19 := by decide
theorem witness_ParserdResult : HoldsResponse .read (parseStart "$R1=31!9+") .one 3#6 1#6 where
  length := by decide
  start := by decide
  operation := by decide
  width := by decide
  marker := by decide
  sequence := by decide
  count := by decide
  checksum := by decide
theorem witness_ParsewrResult : HoldsResponse .write (parseStart "$W2=50B") .two 5#6 0#6 where
  length := by decide
  start := by decide
  operation := by decide
  width := by decide
  marker := by decide
  sequence := by decide
  count := by decide
  checksum := by decide
theorem witness_ResponsesParseBack : State.reset.params.wf = true ∧ State.reset.buf.wf = true ∧
    (List.replicate 63 (0xFFFF#32, 3#4)).length ≤ 63 ∧
    ∀ e ∈ List.replicate 63 (0xFFFF#32, 3#4), e.1.toNat < 2 ^ FrameWidth.two.codec.bits ∧
      e.2.toNat < 2 ^ FrameWidth.two.codec.xbits :=
  ⟨by decide, by decide, by decide, fun e h => by rw [List.eq_of_mem_replicate h]; decide⟩
theorem witness_CrcinitCrcfinCrcvfyResults : (1#4 ≠ 0#4) ∧
    ({ State.reset with crc := 0x340BC6D9#32 } : State).crc ^^^ State.reset.params.crcXorOut = 0xCBF43926#32 := by decide
theorem witness_CrcupdbCrcupdwResults : Params.default.crcPoly = 0xEDB88320#32 ∧
    Params.default.crcInit = 0xFFFFFFFF#32 ∧ Params.default.crcXorOut = 0xFFFFFFFF#32 ∧ (1#4 ≠ 0#4) ∧ 256 ≤ (256#32).toNat ∧ (255#32).toNat < 256 := by decide
theorem witness_CrcupdrResult : ¬ ((0#16).toNat ≤ (8#16).toNat ∧ (8#16).toNat ≤ (holding "$R400w?").len.toNat) ∧
    (0#16).toNat ≤ (7#16).toNat ∧ (7#16).toNat ≤ (holding "$R400w?").len.toNat ∧ (7#16).toNat ≤ (7#16).toNat := by decide
theorem witness_CrcOfASplitRange : (0#16).toNat ≤ (4#16).toNat ∧ (4#16).toNat ≤ (7#16).toNat ∧
    (7#16).toNat ≤ (holding "$R400w?").len.toNat := by decide
theorem witness_CrcResidue : State.reset.params.crcPoly = 0xEDB88320#32 ∧
    State.reset.params.crcXorOut = 0xFFFFFFFF#32 := by decide
theorem witness_ReadPortValues : 13 ≤ (13#16).toNat ∧ 0xC0 ≤ (0xC0#16).toNat ∧ 0xC0 ≤ (0x100#16).toNat := by decide
theorem witness_HandshakeSequencesComputeTheCrc : State.reset.params.wf = true ∧ State.reset.buf.wf = true ∧
    7 = ((0x11223367#32).extractLsb' (4 * (0 : Fin 8).val) 4).toNat ∧
    1 = ((0x11223367#32).extractLsb' (28 - 4 * (0 : Fin 8).val) 4).toNat ∧
    100 = 100 * 1 + 10 * 0 + 0 ∧ 999 = 100 * 9 + 10 * 9 + 9 ∧ 0x67#8 = (0x11223367#32).extractLsb' 0 8 ∧
    [0x31#8, 0x67#8, 0x30#8, 0x33#8, 0x30#8, 0x22#8, 0x11#8] =
      [BitVec.ofNat 8 (0x30 + 1), (0x11223367#32).extractLsb' 0 8, BitVec.ofNat 8 (0x30 + 0),
       (0x11223367#32).extractLsb' 8 8, BitVec.ofNat 8 (0x30 + 0), (0x11223367#32).extractLsb' 16 8,
       (0x11223367#32).extractLsb' 24 8] := by decide

end Sys2Proof.Tests
end

section
/-! PROOF. The state of the block (10_state.md): what every command reads and writes, and the statements that follow. -/

namespace Sys2Proof.Machine

/-! ## The range checks as inequalities -/

theorem State.roomFor_iff {s : State} {n : Nat} :
    s.roomFor n = true ↔ s.pos.toNat + n ≤ s.params.bufcap.toNat := by
  simp [State.roomFor]

theorem State.holds_iff {s : State} {n : Nat} : s.holds n = true ↔ s.pos.toNat + n ≤ s.len.toNat := by
  simp [State.holds]

theorem State.rangeValid_iff {s : State} {lo hi : BitVec 16} :
    s.rangeValid lo hi = true ↔ lo.toNat ≤ hi.toNat ∧ hi.toNat ≤ s.len.toNat := by
  simp [State.rangeValid]

/-! ## What a command reads and what it does

`Effect` lists what a command can do, one constructor per kind of ending; `exec_effect` says that every command does one
of these, and that which one depends on what `ReadsAlike` compares only. -/

/-- Two states that no command can tell apart by what it reads (10_state.md R47, the reads column): the parameters, the
cursor, the length, `CRC`, `SEQ`, the table, and the bytes below `LEN` or below the cursor (`CKAPP` sums up to there). -/
structure ReadsAlike (s s' : State) : Prop where
  params : s'.params = s.params
  pos : s'.pos = s.pos
  len : s'.len = s.len
  crc : s'.crc = s.crc
  seq : s'.seq = s.seq
  tab : s'.tab = s.tab
  byte : ∀ j, j < max s.len.toNat s.pos.toNat → s'.buf.read j = s.buf.read j

namespace ReadsAlike

variable {s s' : State}

theorem refl (s : State) : ReadsAlike s s := ⟨rfl, rfl, rfl, rfl, rfl, rfl, fun _ _ => rfl⟩

theorem roomFor (h : ReadsAlike s s') (n : Nat) : s'.roomFor n = s.roomFor n := by
  simp only [State.roomFor, h.pos, h.params]

theorem holds (h : ReadsAlike s s') (n : Nat) : s'.holds n = s.holds n := by
  simp only [State.holds, h.pos, h.len]

theorem rangeValid (h : ReadsAlike s s') (lo hi : BitVec 16) : s'.rangeValid lo hi = s.rangeValid lo hi := by
  simp only [State.rangeValid, h.len]

theorem readBytes (h : ReadsAlike s s') {j n : Nat} (hn : j + n ≤ max s.len.toNat s.pos.toNat) :
    s'.buf.readBytes j n = s.buf.readBytes j n :=
  Memory.readBytes_congr fun k hk => h.byte (j + k) (by omega)

theorem rangeBytes (h : ReadsAlike s s') {lo hi : BitVec 16} (hle : lo.toNat ≤ hi.toNat)
    (hn : hi.toNat ≤ max s.len.toNat s.pos.toNat) : s'.rangeBytes lo hi = s.rangeBytes lo hi :=
  h.readBytes (by omega)

theorem crcFinal (h : ReadsAlike s s') : s'.crcFinal = s.crcFinal := by
  simp only [State.crcFinal, h.crc, h.params]

theorem entries (h : ReadsAlike s s') (count : Six) : s'.entries count = s.entries count := by
  simp only [State.entries, h.tab]

end ReadsAlike

/-- The assemble command of an operation: `ASMRD` or `ASMWR`. -/
def assembleCommand : FrameOp → BitVec 2 → BitVec 6 → BitVec 6 → Instr
  | .read => .asmrd
  | .write => .asmwr

/-- What a command executed in the state `s` can do to the state it is executed in: the values it writes come from `s`.
A fault changes `STATUS` only, whatever the command, so `raise` does not say which command raises which (60_exceptions.md
R236). -/
inductive Effect (s : State) : Instr → (State → State) → Prop
  | raise {i : Instr} (e : Misuse) : Effect s i fun t => t.raise e
  | nop : Effect s .nop fun t => t.done
  | reset : Effect s .reset fun t => t.resetBlock
  | touch : Effect s .touch fun t => ({ t with a := s.seq.setWidth 32, seq := s.seq + 1#6 } : State).done
  | clrb : Effect s .clrb fun t => ({ t with len := 0#16, pos := 0#16 } : State).done
  | setpos (x4 : BitVec 4) (imm : BitVec 32) (valid : (imm.extractLsb' 0 16).toNat ≤ s.len.toNat) :
      Effect s (.setpos x4 imm) fun t => ({ t with pos := imm.extractLsb' 0 16 } : State).done
  | putb (x4 : BitVec 4) (imm : BitVec 32) (room : s.roomFor 1 = true) :
      Effect s (.putb x4 imm) fun t => (t.putAtCursor [imm.extractLsb' 0 8]).done
  | getb (valid : s.holds 1 = true) :
      Effect s .getb fun t =>
        ({ t with a := (s.buf.read s.pos.toNat).setWidth 32, pos := s.pos + 1#16 } : State).done
  | tabw (rc : BitVec 4) (idx : BitVec 6) (addr : BitVec 12) (v : BitVec 32) :
      Effect s (.tabw rc idx addr v) fun t =>
        ({ t with tab := t.tab.set idx.toNat ⟨addr, v, rc⟩ idx.isLt } : State).done
  | encode (c : CodecWidth) (x4 : BitVec 4) (imm : BitVec 32) (room : s.roomFor c.nsym = true) :
      Effect s (encCommand c x4 imm) fun t => (t.putAtCursor (pack c imm x4)).done
  | decode (c : CodecWidth) (valid : s.holds c.nsym = true) :
      Effect s (decCommand c) fun t =>
        ({ t with a := (unpack c (s.buf.readBytes s.pos.toNat c.nsym)).1
                  x := (unpack c (s.buf.readBytes s.pos.toNat c.nsym)).2
                  pos := s.pos + BitVec.ofNat 16 c.nsym } : State).done
  | cksum (lo hi : BitVec 16) :
      Effect s (.cksum lo hi) fun t => ({ t with ck := cksum (s.rangeBytes lo hi) } : State).done
  | ckapp (lo hi : BitVec 16) (room : s.roomFor 1 = true) :
      Effect s (.ckapp lo hi) fun t =>
        (({ t with ck := cksum (s.rangeBytes lo s.pos) } : State).putAtCursor [sym (cksum (s.rangeBytes lo s.pos))]).done
  | ckvfy (lo hi : BitVec 16) :
      Effect s (.ckvfy lo hi) fun t => ({ t with ck := cksum (s.rangeBytes lo hi) } : State).done
  | ckvfyFails (lo hi : BitVec 16) :
      Effect s (.ckvfy lo hi) fun t => ({ t with ck := cksum (s.rangeBytes lo hi) } : State).fail .cksum
  | crcinit : Effect s .crcinit fun t => ({ t with crc := s.params.crcInit } : State).done
  | crcupdb (x4 : BitVec 4) (imm : BitVec 32) :
      Effect s (.crcupdb x4 imm) fun t =>
        ({ t with crc := crcStep s.params.crcPoly s.crc (imm.extractLsb' 0 8) } : State).done
  | crcupdw (x4 : BitVec 4) (imm : BitVec 32) :
      Effect s (.crcupdw x4 imm) fun t =>
        ({ t with crc := crcFeed s.params.crcPoly s.crc (littleEndian imm) } : State).done
  | crcupdr (lo hi : BitVec 16) :
      Effect s (.crcupdr lo hi) fun t =>
        ({ t with crc := crcFeed s.params.crcPoly s.crc (s.rangeBytes lo hi) } : State).done
  | crcfin : Effect s .crcfin fun t => ({ t with a := s.crcFinal } : State).done
  | crcvfy (x4 : BitVec 4) (imm : BitVec 32) : Effect s (.crcvfy x4 imm) fun t => t.done
  | crcvfyFails (x4 : BitVec 4) (imm : BitVec 32) : Effect s (.crcvfy x4 imm) fun t => t.fail .crc
  | assemble {op : FrameOp} {wf : BitVec 2} {seq count : Six} {w : FrameWidth} {frame : List Byte}
      (width : FrameWidth.ofField wf = some w) (length : frame.length = 7 + count.toNat * requestEntrySize op w)
      (room : frame.length ≤ s.params.bufcap.toNat) :
      Effect s (assembleCommand op wf seq count) fun t =>
        ({ t with buf := t.buf.writeBytes 0 frame, len := BitVec.ofNat 16 frame.length
                  pos := BitVec.ofNat 16 frame.length } : State).done
  | parse (op : FrameOp) {h : ResponseHeader} (accepted : parseChecks op s.buf s.len.toNat = .ok h) :
      Effect s (parseCommand op) fun t =>
        ({ t with tab := storeResponses op h s.buf s.tab, fop := op.char, fwidth := BitVec.ofNat 3 h.width.bytes
                  fseq := h.seq, fcount := h.count } : State).done
  | parseFails (op : FrameOp) {e : Failure} (refused : parseChecks op s.buf s.len.toNat = .error e) :
      Effect s (parseCommand op) fun t => t.fail e

/-- A command has one effect in every state that reads like `s`. -/
def HasEffect (i : Instr) (s : State) : Prop :=
  ∃ u, Effect s i u ∧ ∀ s', ReadsAlike s s' → exec i s' = .next (u s')

theorem hasEffect_setpos (x4 : BitVec 4) (imm : BitVec 32) (s : State) : HasEffect (.setpos x4 imm) s := by
  by_cases hop : x4 ≠ 0#4 ∨ imm.extractLsb' 16 16 ≠ 0#16
  · exact ⟨_, .raise .operand, fun s' _ => by rw [exec, execSetpos, if_pos hop]⟩
  by_cases hlen : s.len < imm.extractLsb' 0 16
  · exact ⟨_, .raise .range, fun s' hs => by rw [exec, execSetpos, if_neg hop, hs.len, if_pos hlen]⟩
  · exact ⟨_, .setpos x4 imm (BitVec.not_lt.1 hlen), fun s' hs => by
      rw [exec, execSetpos, if_neg hop, hs.len, if_neg hlen]⟩

theorem hasEffect_putb (x4 : BitVec 4) (imm : BitVec 32) (s : State) : HasEffect (.putb x4 imm) s := by
  by_cases hop : byteOperand x4 imm = true
  · by_cases hroom : s.roomFor 1 = true
    · exact ⟨_, .putb x4 imm hroom, fun s' hs => by simp [exec, execPutb, hs.roomFor, hop, hroom]⟩
    · exact ⟨_, .raise .range, fun s' hs => by simp [exec, execPutb, hs.roomFor, hop, hroom]⟩
  · exact ⟨_, .raise .operand, fun s' _ => by simp [exec, execPutb, hop]⟩

theorem hasEffect_getb (s : State) : HasEffect .getb s := by
  by_cases hv : s.holds 1 = true
  · have hlt : s.pos.toNat < max s.len.toNat s.pos.toNat := lt_max_of_lt_left (State.holds_iff.1 hv)
    exact ⟨_, .getb hv, fun s' hs => by simp [exec, execGetb, hs.holds, hv, hs.pos, hs.byte _ hlt]⟩
  · exact ⟨_, .raise .range, fun s' hs => by simp [exec, execGetb, hs.holds, hv]⟩

theorem exec_encCommand (c : CodecWidth) (x4 : BitVec 4) (imm : BitVec 32) (s : State) :
    exec (encCommand c x4 imm) s = .next (encodeStep c x4 imm s) := by
  cases c <;> rfl

theorem hasEffect_encCommand (c : CodecWidth) (x4 : BitVec 4) (imm : BitVec 32) (s : State) :
    HasEffect (encCommand c x4 imm) s := by
  by_cases hop : fits imm c.bits = true ∧ extraFits x4 c = true
  · by_cases hroom : s.roomFor c.nsym = true
    · exact ⟨_, .encode c x4 imm hroom, fun s' hs => by simp [exec_encCommand, encodeStep, hop, hs.roomFor, hroom]⟩
    · exact ⟨_, .raise .range, fun s' hs => by simp [exec_encCommand, encodeStep, hop, hs.roomFor, hroom]⟩
  · refine ⟨_, .raise .operand, fun s' _ => ?_⟩
    rw [exec_encCommand, encodeStep]
    by_cases hf : fits imm c.bits = true
    · simp [hf, show ¬ extraFits x4 c = true from fun hx => hop ⟨hf, hx⟩]
    · simp [hf]

theorem exec_decCommand (c : CodecWidth) (s : State) : exec (decCommand c) s = .next (decodeStep c s) := by
  cases c <;> rfl

theorem hasEffect_decCommand (c : CodecWidth) (s : State) : HasEffect (decCommand c) s := by
  by_cases hv : s.holds c.nsym = true
  · have hle : s.pos.toNat + c.nsym ≤ max s.len.toNat s.pos.toNat := le_max_of_le_left (State.holds_iff.1 hv)
    exact ⟨_, .decode c hv, fun s' hs => by
      simp [exec_decCommand, decodeStep, hs.holds, hv, hs.pos, hs.readBytes hle]⟩
  · exact ⟨_, .raise .range, fun s' hs => by simp [exec_decCommand, decodeStep, hs.holds, hv]⟩

theorem hasEffect_cksum (lo hi : BitVec 16) (s : State) : HasEffect (.cksum lo hi) s := by
  by_cases hv : s.rangeValid lo hi = true
  · obtain ⟨hle, hlen⟩ := State.rangeValid_iff.1 hv
    exact ⟨_, .cksum lo hi, fun s' hs => by
      simp [exec, execCksum, hs.rangeValid, hv, hs.rangeBytes hle (le_max_of_le_left hlen)]⟩
  · exact ⟨_, .raise .range, fun s' hs => by simp [exec, execCksum, hs.rangeValid, hv]⟩

theorem hasEffect_crcupdr (lo hi : BitVec 16) (s : State) : HasEffect (.crcupdr lo hi) s := by
  by_cases hv : s.rangeValid lo hi = true
  · obtain ⟨hle, hlen⟩ := State.rangeValid_iff.1 hv
    exact ⟨_, .crcupdr lo hi, fun s' hs => by
      simp [exec, execCrcupdr, hs.rangeValid, hv, hs.rangeBytes hle (le_max_of_le_left hlen), hs.params, hs.crc]⟩
  · exact ⟨_, .raise .range, fun s' hs => by simp [exec, execCrcupdr, hs.rangeValid, hv]⟩

theorem hasEffect_ckapp (lo hi : BitVec 16) (s : State) : HasEffect (.ckapp lo hi) s := by
  by_cases hop : hi ≠ 0#16
  · exact ⟨_, .raise .operand, fun s' _ => by rw [exec, execCkapp, if_pos hop]⟩
  by_cases hr : s.pos.toNat < lo.toNat ∨ s.params.bufcap.toNat ≤ s.pos.toNat
  · exact ⟨_, .raise .range, fun s' hs => by rw [exec, execCkapp, if_neg hop, hs.pos, hs.params, if_pos hr]⟩
  · have hroom : s.roomFor 1 = true := State.roomFor_iff.2 (by omega)
    refine ⟨_, .ckapp lo hi hroom, fun s' hs => ?_⟩
    rw [exec, execCkapp, if_neg hop, hs.pos, hs.params, if_neg hr, hs.rangeBytes (by omega) (le_max_right ..)]

theorem hasEffect_ckvfy (lo hi : BitVec 16) (s : State) : HasEffect (.ckvfy lo hi) s := by
  by_cases hr : hi.toNat < lo.toNat ∨ s.len.toNat ≤ hi.toNat
  · exact ⟨_, .raise .range, fun s' hs => by rw [exec, execCkvfy, hs.len, if_pos hr]⟩
  have hsum {s'} (hs : ReadsAlike s s') : s'.rangeBytes lo hi = s.rangeBytes lo hi := hs.rangeBytes (by omega) (by omega)
  have hbyte {s'} (hs : ReadsAlike s s') : s'.buf.read hi.toNat = s.buf.read hi.toNat := hs.byte _ (by omega)
  by_cases hne : sym (cksum (s.rangeBytes lo hi)) ≠ s.buf.read hi.toNat
  · refine ⟨_, .ckvfyFails lo hi, fun s' hs => ?_⟩
    rw [exec, execCkvfy, hs.len, if_neg hr, hsum hs, hbyte hs, if_pos hne]
  · refine ⟨_, .ckvfy lo hi, fun s' hs => ?_⟩
    rw [exec, execCkvfy, hs.len, if_neg hr, hsum hs, hbyte hs, if_neg hne]

theorem hasEffect_crcupdb (x4 : BitVec 4) (imm : BitVec 32) (s : State) : HasEffect (.crcupdb x4 imm) s := by
  by_cases hop : byteOperand x4 imm = true
  · exact ⟨_, .crcupdb x4 imm, fun s' hs => by simp [exec, execCrcupdb, hop, hs.params, hs.crc]⟩
  · exact ⟨_, .raise .operand, fun s' _ => by simp [exec, execCrcupdb, hop]⟩

theorem hasEffect_crcupdw (x4 : BitVec 4) (imm : BitVec 32) (s : State) : HasEffect (.crcupdw x4 imm) s := by
  by_cases hop : x4 = 0#4
  · exact ⟨_, .crcupdw x4 imm, fun s' hs => by simp [exec, execCrcupdw, hop, hs.params, hs.crc]⟩
  · exact ⟨_, .raise .operand, fun s' _ => by simp [exec, execCrcupdw, hop]⟩

theorem hasEffect_crcvfy (x4 : BitVec 4) (imm : BitVec 32) (s : State) : HasEffect (.crcvfy x4 imm) s := by
  by_cases hop : x4 = 0#4
  · by_cases heq : s.crcFinal = imm
    · exact ⟨_, .crcvfy x4 imm, fun s' hs => by simp [exec, execCrcvfy, hop, hs.crcFinal, heq]⟩
    · exact ⟨_, .crcvfyFails x4 imm, fun s' hs => by simp [exec, execCrcvfy, hop, hs.crcFinal, heq]⟩
  · exact ⟨_, .raise .operand, fun s' _ => by simp [exec, execCrcvfy, hop]⟩

theorem exec_assembleCommand (op : FrameOp) (wf : BitVec 2) (seq count : Six) (s : State) :
    exec (assembleCommand op wf seq count) s = .next (assemble op wf seq count s) := by
  cases op <;> rfl

theorem hasEffect_assembleCommand (op : FrameOp) (wf : BitVec 2) (seq count : Six) (s : State) :
    HasEffect (assembleCommand op wf seq count) s := by
  cases hw : FrameWidth.ofField wf with
  | none => exact ⟨_, .raise .operand, fun s' _ => by simp [exec_assembleCommand, assemble, hw]⟩
  | some w =>
    by_cases hfit : op = .write ∧ ¬ (s.entries count).all (fun e => fits e.val w.codec.bits) = true
    · refine ⟨_, .raise .operand, fun s' hs => ?_⟩
      simp only [exec_assembleCommand, assemble, hw, hs.entries]
      rw [if_pos hfit]
    by_cases hcap : s.params.bufcap.toNat < 7 + count.toNat * requestEntrySize op w
    · refine ⟨_, .raise .range, fun s' hs => ?_⟩
      simp only [exec_assembleCommand, assemble, hw, hs.entries, hs.params]
      rw [if_neg hfit, if_pos hcap]
    · have hlen := length_requestFrame op w seq count s
      refine ⟨_, .assemble hw hlen (by omega), fun s' hs => ?_⟩
      simp only [exec_assembleCommand, assemble, hw, hs.entries, hs.params]
      rw [if_neg hfit, if_neg hcap, hlen]

/-- The checks of a parse read no byte at or above the length. -/
theorem parseChecks_congr (op : FrameOp) {m m' : Memory} {n : Nat} (h : ∀ j, j < n → m'.read j = m.read j) :
    parseChecks op m' n = parseChecks op m n := by
  unfold parseChecks
  by_cases hn : n < 7
  · rw [if_pos hn, if_pos hn]
  · have hsum : m'.readBytes 4 (n - 5) = m.readBytes 4 (n - 5) := Memory.readBytes_congr fun k hk => h _ (by omega)
    rw [hsum, h (n - 1) (by omega), h 0 (by omega), h 1 (by omega), h 2 (by omega), h 3 (by omega), h 4 (by omega),
      h 5 (by omega)]

/-- The entries stored by a parse come from bytes below the frame's length. -/
theorem storeResponses_congr (op : FrameOp) {hd : ResponseHeader} {m m' : Memory} {n : Nat}
    (h : ∀ j, j < n → m'.read j = m.read j) (hn : 7 + hd.count.toNat * hd.width.codec.nsym ≤ n) (tab : Vector TabEntry 64) :
    storeResponses op hd m' tab = storeResponses op hd m tab := by
  unfold storeResponses
  congr 1
  funext i
  split
  · next hi =>
    have hmul : (i.val + 1) * hd.width.codec.nsym ≤ hd.count.toNat * hd.width.codec.nsym := Nat.mul_le_mul_right _ hi
    rw [Nat.succ_mul] at hmul
    have hgroup : responseEntry hd.width m' i.val = responseEntry hd.width m i.val := by
      unfold responseEntry
      rw [Memory.readBytes_congr fun k hk => h _ (by omega)]
    rw [hgroup]
  · rfl

theorem exec_parseCommand (op : FrameOp) (s : State) : exec (parseCommand op) s = .next (parse op s) := by
  cases op <;> rfl

theorem hasEffect_parseCommand (op : FrameOp) (s : State) : HasEffect (parseCommand op) s := by
  have hchecks {s'} (hs : ReadsAlike s s') :
      parseChecks op s'.buf s'.len.toNat = parseChecks op s.buf s.len.toNat := by
    rw [hs.len]
    exact parseChecks_congr op fun j hj => hs.byte j (lt_max_of_lt_left hj)
  cases hp : parseChecks op s.buf s.len.toNat with
  | error e => exact ⟨_, .parseFails op hp, fun s' hs => by simp [exec_parseCommand, parse, hchecks hs, hp]⟩
  | ok h =>
    refine ⟨_, .parse op hp, fun s' hs => ?_⟩
    have hlen := ((parseChecks_ok_iff op s h).1 hp).length
    have hstore := storeResponses_congr op (hd := h) (fun j hj => hs.byte j (lt_max_of_lt_left hj)) hlen.ge s.tab
    simp [exec_parseCommand, parse, hchecks hs, hp, hs.tab, hstore]

/-- Every command has an effect, which only what it reads decides (10_state.md R20, R47). -/
theorem exec_effect (i : Instr) (s : State) : HasEffect i s := by
  cases i with
  | nop => exact ⟨_, .nop, fun _ _ => rfl⟩
  | reset => exact ⟨_, .reset, fun _ _ => rfl⟩
  | touch => exact ⟨_, .touch, fun s' hs => by simp [exec, execTouch, hs.seq]⟩
  | clrb => exact ⟨_, .clrb, fun _ _ => rfl⟩
  | setpos x4 imm => exact hasEffect_setpos x4 imm s
  | putb x4 imm => exact hasEffect_putb x4 imm s
  | getb => exact hasEffect_getb s
  | tabw rc idx addr v => exact ⟨_, .tabw rc idx addr v, fun _ _ => rfl⟩
  | enc6 x4 imm => exact hasEffect_encCommand .w6 x4 imm s
  | enc8 x4 imm => exact hasEffect_encCommand .w8 x4 imm s
  | enc12 x4 imm => exact hasEffect_encCommand .w12 x4 imm s
  | enc16 x4 imm => exact hasEffect_encCommand .w16 x4 imm s
  | enc32 x4 imm => exact hasEffect_encCommand .w32 x4 imm s
  | dec6 => exact hasEffect_decCommand .w6 s
  | dec8 => exact hasEffect_decCommand .w8 s
  | dec12 => exact hasEffect_decCommand .w12 s
  | dec16 => exact hasEffect_decCommand .w16 s
  | dec32 => exact hasEffect_decCommand .w32 s
  | cksum lo hi => exact hasEffect_cksum lo hi s
  | ckapp lo hi => exact hasEffect_ckapp lo hi s
  | ckvfy lo hi => exact hasEffect_ckvfy lo hi s
  | crcinit => exact ⟨_, .crcinit, fun s' hs => by simp [exec, execCrcinit, hs.params]⟩
  | crcupdb x4 imm => exact hasEffect_crcupdb x4 imm s
  | crcupdw x4 imm => exact hasEffect_crcupdw x4 imm s
  | crcupdr lo hi => exact hasEffect_crcupdr lo hi s
  | crcfin => exact ⟨_, .crcfin, fun s' hs => by simp [exec, execCrcfin, hs.crcFinal]⟩
  | crcvfy x4 imm => exact hasEffect_crcvfy x4 imm s
  | asmrd w seq count => exact hasEffect_assembleCommand .read w seq count s
  | asmwr w seq count => exact hasEffect_assembleCommand .write w seq count s
  | parserd => exact hasEffect_parseCommand .read s
  | parsewr => exact hasEffect_parseCommand .write s

/-! ## What an effect keeps -/

/-- The part `f` of the state is as before. -/
def Keeps {α : Type} (f : State → α) (u : State → State) : Prop := ∀ t, f (u t) = f t

/-- The part `f` of the state gets a value that does not depend on the state before. -/
def Overwrites {α : Type} (f : State → α) (u : State → State) : Prop := ∀ t t', f (u t') = f (u t)

/-- Two runs with one effect end with `f` equal, or untouched in both. -/
theorem equal_or_untouched {α : Type} {f : State → α} {u : State → State}
    (h : Keeps f u ∨ Overwrites f u) (t t' : State) :
    f (u t') = f (u t) ∨ (f (u t) = f t ∧ f (u t') = f t') :=
  h.symm.imp (fun hw => hw t t') fun hk => ⟨hk t, hk t'⟩

/-- What holds of several registers together holds of each. -/
theorem keeps_or_overwrites_comp {α β : Type} {f : State → α} {u : State → State} (g : α → β)
    (h : Keeps f u ∨ Overwrites f u) : Keeps (g ∘ f) u ∨ Overwrites (g ∘ f) u :=
  h.imp (fun hk t => congrArg g (hk t)) fun hw t t' => congrArg g (hw t t')

/-- `FOP`, `FWIDTH`, `FSEQ` and `FCOUNT`, which are written together (10_state.md R30 to R32). -/
def State.parseRegisters (s : State) : BitVec 8 × BitVec 3 × BitVec 6 × BitVec 6 := (s.fop, s.fwidth, s.fseq, s.fcount)

namespace Effect

variable {s : State} {i : Instr} {u : State → State}

theorem a_written (h : Effect s i u) : Keeps State.a u ∨ Overwrites State.a u ∧
    i.mnemonic ∈ ["DEC6", "DEC8", "DEC12", "DEC16", "DEC32", "GETB", "CRCFIN", "TOUCH", "RESET"] := by
  cases h with
  | decode c => exact .inr ⟨fun _ _ => rfl, by cases c <;> simp [decCommand, Instr.mnemonic]⟩
  | getb | crcfin | touch | reset => exact .inr ⟨fun _ _ => rfl, by simp [Instr.mnemonic]⟩
  | _ => exact .inl fun _ => rfl

theorem x_written (h : Effect s i u) : Keeps State.x u ∨ Overwrites State.x u ∧
    i.mnemonic ∈ ["DEC6", "DEC8", "DEC12", "DEC16", "DEC32", "RESET"] := by
  cases h with
  | decode c => exact .inr ⟨fun _ _ => rfl, by cases c <;> simp [decCommand, Instr.mnemonic]⟩
  | reset => exact .inr ⟨fun _ _ => rfl, by simp [Instr.mnemonic]⟩
  | _ => exact .inl fun _ => rfl

theorem ck_written (h : Effect s i u) : Keeps State.ck u ∨ Overwrites State.ck u ∧
    i.mnemonic ∈ ["CKSUM", "CKAPP", "CKVFY", "RESET"] := by
  cases h with
  | cksum | ckapp | ckvfy | ckvfyFails | reset => exact .inr ⟨fun _ _ => rfl, by simp [Instr.mnemonic]⟩
  | _ => exact .inl fun _ => rfl

theorem parseRegisters_written (h : Effect s i u) :
    Keeps State.parseRegisters u ∨ Overwrites State.parseRegisters u ∧
      i.mnemonic ∈ ["PARSERD", "PARSEWR", "RESET"] := by
  cases h with
  | parse op => exact .inr ⟨fun _ _ => rfl, by cases op <;> simp [parseCommand, Instr.mnemonic]⟩
  | reset => exact .inr ⟨fun _ _ => rfl, by simp [Instr.mnemonic]⟩
  | _ => exact .inl fun _ => rfl

theorem faultBit_written (h : Effect s i u) : Keeps State.faultBit u ∨ Overwrites State.faultBit u := by
  cases h with
  | raise | reset => exact .inr fun _ _ => rfl
  | _ => exact .inl fun _ => rfl

theorem pos_written (h : Effect s i u) : Keeps State.pos u ∨
    i.mnemonic ∈ ["CLRB", "SETPOS", "PUTB", "GETB", "ENC6", "ENC8", "ENC12", "ENC16", "ENC32", "DEC6",
      "DEC8", "DEC12", "DEC16", "DEC32", "CKAPP", "ASMRD", "ASMWR", "RESET"] := by
  cases h with
  | encode c => exact .inr (by cases c <;> simp [encCommand, Instr.mnemonic])
  | decode c => exact .inr (by cases c <;> simp [decCommand, Instr.mnemonic])
  | @assemble op => exact .inr (by cases op <;> simp [assembleCommand, Instr.mnemonic])
  | clrb | setpos | putb | getb | ckapp | reset => exact .inr (by simp [Instr.mnemonic])
  | _ => exact .inl fun _ => rfl

theorem len_written (h : Effect s i u) : Keeps State.len u ∨
    i.mnemonic ∈ ["CLRB", "PUTB", "ENC6", "ENC8", "ENC12", "ENC16", "ENC32", "CKAPP", "ASMRD", "ASMWR", "RESET"] := by
  cases h with
  | encode c => exact .inr (by cases c <;> simp [encCommand, Instr.mnemonic])
  | @assemble op => exact .inr (by cases op <;> simp [assembleCommand, Instr.mnemonic])
  | clrb | putb | ckapp | reset => exact .inr (by simp [Instr.mnemonic])
  | _ => exact .inl fun _ => rfl

theorem crc_written (h : Effect s i u) : Keeps State.crc u ∨
    i.mnemonic ∈ ["CRCINIT", "CRCUPDB", "CRCUPDW", "CRCUPDR", "RESET"] := by
  cases h with
  | crcinit | crcupdb | crcupdw | crcupdr | reset => exact .inr (by simp [Instr.mnemonic])
  | _ => exact .inl fun _ => rfl

theorem seq_written (h : Effect s i u) : Keeps State.seq u ∨ i.mnemonic ∈ ["TOUCH", "RESET"] := by
  cases h with
  | touch | reset => exact .inr (by simp [Instr.mnemonic])
  | _ => exact .inl fun _ => rfl

theorem params_kept (h : Effect s i u) : Keeps State.params u := by
  cases h <;> exact fun _ => rfl

theorem inputs_kept (h : Effect s i u) : Keeps State.inputs u := by
  cases h <;> exact fun _ => rfl

end Effect

/-- Every command gives the next state that its effect says. -/
theorem effect_of_exec {i : Instr} {s t : State} (h : exec i s = .next t) : ∃ u, Effect s i u ∧ t = u s := by
  obtain ⟨u, hu, hex⟩ := exec_effect i s
  rw [hex s (.refl s)] at h
  exact ⟨u, hu, (Host.Outcome.next.inj h).symm⟩

/-- Settles O14: the effect is the same in both states, because no register that differs is read. -/
theorem registersNoCommandReads : Obligations.RegistersNoCommandReads := by
  intro i s a x ck fop fwidth fseq fcount err faultBit
  obtain ⟨u, hu, hex⟩ := exec_effect i s
  have hparse {β : Type} (g : BitVec 8 × BitVec 3 × BitVec 6 × BitVec 6 → β) (t t' : State) :=
    equal_or_untouched (keeps_or_overwrites_comp g (hu.parseRegisters_written.imp_right And.left)) t t'
  exact ⟨u s, u _, hex s (.refl s), hex _ ⟨rfl, rfl, rfl, rfl, rfl, rfl, fun _ _ => rfl⟩, by cases hu <;> rfl,
    equal_or_untouched (hu.a_written.imp_right And.left) _ _,
    equal_or_untouched (hu.x_written.imp_right And.left) _ _,
    equal_or_untouched (hu.ck_written.imp_right And.left) _ _,
    hparse (·.1) _ _, hparse (·.2.1) _ _, hparse (·.2.2.1) _ _, hparse (·.2.2.2) _ _,
    equal_or_untouched hu.faultBit_written _ _⟩

/-- Settles O15, register by register. -/
theorem registersAreWrittenOnlyByTheirCommands : Obligations.RegistersAreWrittenOnlyByTheirCommands := by
  intro i s t h
  obtain ⟨u, hu, rfl⟩ := effect_of_exec h
  refine ⟨hu.a_written.imp (· s) And.right, hu.x_written.imp (· s) And.right, hu.pos_written.imp_left (· s),
    hu.len_written.imp_left (· s), hu.ck_written.imp (· s) And.right, hu.crc_written.imp_left (· s),
    hu.seq_written.imp_left (· s), hu.parseRegisters_written.imp (fun hk => ?_) And.right, hu.params_kept s,
    hu.inputs_kept s⟩
  simpa [State.parseRegisters] using hk s

/-- An entry after a parse is the entry before, or below the count an answered one. -/
theorem getElem_storeResponses (op : FrameOp) (hd : ResponseHeader) (m : Memory) (tab : Vector TabEntry 64) (e : Fin 64) :
    (storeResponses op hd m tab)[e] =
      if e.val < hd.count.toNat then storeResponse op tab[e] (responseEntry hd.width m e.val) else tab[e] := by
  simp [storeResponses]

/-- Settles O17: three effects write the table. -/
theorem tableIsWrittenOnlyByItsCommands : Obligations.TableIsWrittenOnlyByItsCommands := by
  intro i s t h e hne
  obtain ⟨u, hu, rfl⟩ := effect_of_exec h
  cases hu with
  | reset => exact .inl rfl
  | tabw rc idx addr v =>
    refine .inr (.inl ⟨rc, idx, addr, v, rfl, ?_⟩)
    by_contra hidx
    exact hne (Vector.getElem_set_ne idx.isLt e.isLt hidx)
  | @parse op hd =>
    have hlt : e.val < hd.count.toNat := by
      by_contra hge
      exact hne ((getElem_storeResponses op hd s.buf s.tab e).trans (if_neg hge))
    have hentry := (getElem_storeResponses op hd s.buf s.tab e).trans (if_pos hlt)
    have haddr := congrArg TabEntry.addr hentry
    have hval := congrArg TabEntry.val hentry
    cases op with
    | read => exact .inr (.inr (.inl ⟨rfl, hlt, haddr⟩))
    | write => exact .inr (.inr (.inr ⟨rfl, hlt, haddr, hval⟩))
  | _ => exact absurd rfl hne

theorem Failure.code_not_fault (e : Failure) : ¬ 12 ≤ e.code.toNat := by
  have := e.code_bounds
  omega

/-- Settles O20: a fault sets the bit, a reset clears it, and every other effect leaves it and writes no fault code. -/
theorem faultBitIsSticky : Obligations.FaultBitIsSticky := by
  intro i s t h
  refine ⟨fun hi => ?_, fun hi => ?_⟩
  · obtain ⟨u, hu, rfl⟩ := effect_of_exec h
    cases hu with
    | reset => exact absurd rfl hi
    | raise e => simp [e.code_bounds.1]
    | ckvfyFails | crcvfyFails | parseFails => simp [Failure.code_not_fault]
    | _ => simp
  · subst hi
    exact (Host.Outcome.next.inj h) ▸ rfl

/-! ## The invariant -/

theorem inv_resetWith {p : Params} (hp : p.wf = true) : Inv (State.resetWith p) where
  params := hp
  pos_le_len := le_refl _
  len_le_cap := Nat.zero_le _
  buf_wf := rfl
  buf_below := by simp [State.resetWith]
  err_produced := .inl (Nat.zero_le _)
  fault_recorded := by simp [State.resetWith]
  fop_legal := .inl rfl
  fwidth_legal := .inl rfl

/-- Settles O11. -/
theorem resetHasTheBlockInvariant : Obligations.ResetHasTheBlockInvariant :=
  ⟨fun _ hp => inv_resetWith hp, inv_resetWith rfl⟩

namespace Inv

variable {s : State}

theorem done (h : Inv s) : Inv s.done :=
  { h with err_produced := .inl (by simp), fault_recorded := by simp }

theorem fail (h : Inv s) (e : Failure) : Inv (s.fail e) :=
  { h with
    err_produced := .inl e.code_bounds.2
    fault_recorded := fun hle => absurd hle e.code_not_fault }

theorem raise (h : Inv s) (e : Misuse) : Inv (s.raise e) :=
  { h with err_produced := .inr e.code_bounds, fault_recorded := fun _ => rfl }

theorem moveCursor (h : Inv s) {p : BitVec 16} (hp : p.toNat ≤ s.len.toNat) : Inv { s with pos := p } :=
  { h with pos_le_len := hp }

theorem advanceCursor (h : Inv s) {n : Nat} (hn : s.holds n = true) : Inv { s with pos := s.pos + BitVec.ofNat 16 n } :=
  h.moveCursor <| by
    rw [State.pos_add_toNat_of_holds hn]
    exact State.holds_iff.1 hn

theorem putAtCursor (h : Inv s) {bs : List Byte} (hroom : s.roomFor bs.length = true) : Inv (s.putAtCursor bs) := by
  have hcap : s.pos.toNat + bs.length ≤ s.params.bufcap.toNat := State.roomFor_iff.1 hroom
  have hpos : (s.putAtCursor bs).pos.toNat = s.pos.toNat + bs.length := State.pos_add_toNat hroom
  have hlen := State.putAtCursor_len_toNat hroom
  exact
    { h with
      pos_le_len := by omega
      len_le_cap := by rw [hlen]; exact max_le h.len_le_cap hcap
      buf_wf := Memory.wf_writeBytes h.buf_wf
      buf_below := Memory.below_writeBytes h.buf_below hcap }

theorem putFrame (h : Inv s) {frame : List Byte} (hroom : frame.length ≤ s.params.bufcap.toNat) :
    Inv { s with buf := s.buf.writeBytes 0 frame, len := BitVec.ofNat 16 frame.length
                 pos := BitVec.ofNat 16 frame.length } :=
  { h with
    pos_le_len := le_refl _
    len_le_cap := (Nat.mod_le ..).trans hroom
    buf_wf := Memory.wf_writeBytes h.buf_wf
    buf_below := Memory.below_writeBytes h.buf_below ((Nat.zero_add _).trans_le hroom) }

theorem setParseRegisters (h : Inv s) (op : FrameOp) (w : FrameWidth) :
    Inv { s with fop := op.char, fwidth := BitVec.ofNat 3 w.bytes } :=
  { h with
    fop_legal := by cases op <;> simp
    fwidth_legal := by cases w <;> simp [FrameWidth.bytes] }

theorem resetBlock (h : Inv s) : Inv s.resetBlock :=
  { inv_resetWith h.params with buf_wf := h.buf_wf, buf_below := h.buf_below }

theorem setCk (h : Inv s) (c : Six) : Inv { s with ck := c } :=
  { h with }

end Inv

/-- Every effect keeps the invariant. -/
theorem inv_of_effect {s : State} {i : Instr} {u : State → State} (hu : Effect s i u) (h : Inv s) : Inv (u s) := by
  cases hu with
  | raise e => exact h.raise e
  | reset => exact h.resetBlock
  | clrb => exact Inv.done { h with pos_le_len := le_refl _, len_le_cap := Nat.zero_le _ }
  | setpos _ _ valid => exact (h.moveCursor valid).done
  | putb _ _ room => exact (h.putAtCursor (by simpa using room)).done
  | getb valid => exact Inv.done { h.advanceCursor valid with }
  | encode _ _ _ room => exact (h.putAtCursor (by simpa using room)).done
  | decode _ valid => exact Inv.done { h.advanceCursor valid with }
  | ckapp lo _ room =>
    exact ((h.setCk (cksum (s.rangeBytes lo s.pos))).putAtCursor (bs := [_]) room).done
  | ckvfyFails => exact (h.setCk _).fail _
  | crcvfyFails => exact h.fail _
  | assemble _ _ room => exact (h.putFrame room).done
  | @parse op hd => exact Inv.done { h.setParseRegisters op hd.width with }
  | @parseFails _ e => exact h.fail e
  | nop | touch | tabw | cksum | ckvfy | crcinit | crcupdb | crcupdw | crcupdr | crcfin | crcvfy =>
    exact Inv.done { h with }

/-! ## One step

A step that takes something other than two words at once has the effect of a command: of the decoded one, of a fault for
a word that is none, or of `RESET`. -/

theorem step_of_idle {s : State} (h : s.inputs = []) : step s = .next s := by
  simp [step, State.takeInput, h]

theorem step_of_command {s : State} {w : CmdWord} {rest : List Input} (h : s.inputs = .command w :: rest) :
    step s = execWord w { s with inputs := rest } := by
  simp [step, State.takeInput, h]

theorem step_of_resetInput {s : State} {rest : List Input} (h : s.inputs = .resetInput :: rest) :
    step s = .next ({ s with inputs := rest } : State).resetBlock := by
  simp [step, State.takeInput, h]

theorem step_of_together {s : State} {w₁ w₂ : CmdWord} {rest : List Input} (h : s.inputs = .together w₁ w₂ :: rest) :
    step s = .fault .simultaneousCommands := by
  simp [step, State.takeInput, h]

theorem execWord_of_decode {w : CmdWord} {i : Instr} (h : decode w = .ok i) (s : State) : execWord w s = exec i s := by
  simp [execWord, h]

theorem execWord_of_decode_error {w : CmdWord} {e : DecodeError} (h : decode w = .error e) (s : State) :
    execWord w s = .next (s.raise .illegal) := by
  simp [execWord, h]

/-- Settles O7. -/
theorem stepRunsTheDecodedCommand : Obligations.StepRunsTheDecodedCommand :=
  fun _ _ _ h => ⟨step_of_command h, fun _ hd => (step_of_command h).trans (execWord_of_decode hd _)⟩

/-- Every word has an effect, which only what commands read decides; a word that is no command has that of a fault. -/
theorem execWord_effect (w : CmdWord) (s : State) :
    ∃ i u, Effect s i u ∧ ∀ s', ReadsAlike s s' → execWord w s' = .next (u s') := by
  cases hd : decode w with
  | error e => exact ⟨.nop, _, .raise .illegal, fun s' _ => execWord_of_decode_error hd s'⟩
  | ok i =>
    obtain ⟨u, hu, hex⟩ := exec_effect i s
    exact ⟨i, u, hu, fun s' hs => (execWord_of_decode hd s').trans (hex s' hs)⟩

/-- Taking a command word or the reset input is one effect in the state with the input consumed. -/
theorem step_effect (s : State) {input : Input} {rest : List Input} (hne : ∀ w₁ w₂, input ≠ .together w₁ w₂) :
    ∃ i u, Effect { s with inputs := rest } i u ∧
      ∀ s', ReadsAlike s s' → s'.inputs = input :: rest → step s' = .next (u { s' with inputs := rest }) := by
  cases input with
  | together w₁ w₂ => exact absurd rfl (hne w₁ w₂)
  | resetInput => exact ⟨.reset, _, .reset, fun s' _ hin => step_of_resetInput hin⟩
  | command w =>
    obtain ⟨i, u, hu, hex⟩ := execWord_effect w { s with inputs := rest }
    exact ⟨i, u, hu, fun s' hs hin => (step_of_command hin).trans (hex _ { hs with })⟩

/-- Everything a step that gives a next state can do. -/
theorem step_cases {s t : State} (h : step s = .next t) :
    (s.inputs = [] ∧ t = s) ∨
    ∃ rest i u, Effect { s with inputs := rest } i u ∧ t = u { s with inputs := rest } ∧
      ∀ s', ReadsAlike s s' → s'.inputs = s.inputs → step s' = .next (u { s' with inputs := rest }) := by
  cases hin : s.inputs with
  | nil =>
    rw [step_of_idle hin] at h
    exact .inl ⟨rfl, (Host.Outcome.next.inj h).symm⟩
  | cons input rest =>
    have hne : ∀ w₁ w₂, input ≠ .together w₁ w₂ := by
      rintro w₁ w₂ rfl
      rw [step_of_together hin] at h
      cases h
    obtain ⟨i, u, hu, hex⟩ := step_effect s hne
    rw [hex s (.refl s) hin] at h
    exact .inr ⟨rest, i, u, hu, (Host.Outcome.next.inj h).symm, hex⟩

/-- Settles O10: every effect keeps the invariant, and a step is one effect. -/
theorem stepKeepsTheBlockInvariant : Obligations.StepKeepsTheBlockInvariant := by
  intro s t h hst
  obtain ⟨-, rfl⟩ | ⟨rest, i, u, hu, rfl, -⟩ := step_cases hst
  · exact h
  · exact inv_of_effect hu { h with }

/-! ## A run over a serialised stream -/

/-- A serialised stream has a step, and what is left of it is serialised. -/
theorem step_of_serialised {s : State} (h : Serialised s.inputs) : ∃ t, step s = .next t ∧ Serialised t.inputs := by
  cases hin : s.inputs with
  | nil => exact ⟨s, step_of_idle hin, h⟩
  | cons input rest =>
    rw [hin] at h
    have hne : ∀ w₁ w₂, input ≠ .together w₁ w₂ := by
      rintro w₁ w₂ rfl
      exact h
    have hrest : Serialised rest := by
      cases input with
      | together => exact h.elim
      | command | resetInput => exact h
    obtain ⟨i, u, hu, hex⟩ := step_effect s hne
    exact ⟨_, hex s (.refl s) hin, (hu.inputs_kept _).symm ▸ hrest⟩

theorem run_succ {s t : State} (h : step s = .next t) (n : Nat) : Sys2Proof.core.run (n + 1) s = Sys2Proof.core.run n t := by
  simp only [Host.Core.run, show Sys2Proof.core.step s = .next t from h]

/-- Settles O12, by induction over the length of the run. -/
theorem serialisedRunsNeverStop : Obligations.SerialisedRunsNeverStop := by
  intro n
  induction n with
  | zero => exact fun s hinv hser => ⟨s, rfl, hinv, hser⟩
  | succ n ih =>
    intro s hinv hser
    obtain ⟨t, hst, hser'⟩ := step_of_serialised hser
    rw [run_succ hst]
    exact ih t (stepKeepsTheBlockInvariant s t hinv hst) hser'

/-! ## Bytes at and above `LEN` -/

theorem sameButInvalid_iff {s t : State} :
    SameButInvalid s t ↔ ∃ m, t = { s with buf := m } ∧ ∀ j, j < s.len.toNat → m.read j = s.buf.read j := by
  constructor
  · exact fun h => ⟨t.buf, h.rest, h.valid⟩
  · rintro ⟨m, rfl, hv⟩
    exact ⟨rfl, hv⟩

/-- Two buffers that read alike outside the bytes stored read alike after the store. -/
theorem Memory.read_writeBytes_congr {m m' : Memory} (hm : m.wf = true) (hm' : m'.wf = true) (bs : List Byte) {i j : Nat}
    (h : ¬ (i ≤ j ∧ j < i + bs.length) → m'.read j = m.read j) :
    (m'.writeBytes i bs).read j = (m.writeBytes i bs).read j := by
  rw [Memory.read_writeBytes bs hm', Memory.read_writeBytes bs hm]
  split
  · rfl
  · next hout => exact h hout

section valid

variable {s : State} {m : Memory}

theorem readsAlike_of_valid (h : s.pos.toNat ≤ s.len.toNat) (hv : ∀ j, j < s.len.toNat → m.read j = s.buf.read j) :
    ReadsAlike s { s with buf := m } :=
  ⟨rfl, rfl, rfl, rfl, rfl, rfl, fun j hj => hv j (by omega)⟩

theorem putAtCursor_valid (h : Inv s) (hm : m.wf = true) (hv : ∀ j, j < s.len.toNat → m.read j = s.buf.read j)
    {bs : List Byte} (room : s.roomFor bs.length = true) (j : Nat) (hj : j < (s.putAtCursor bs).len.toNat) :
    (m.writeBytes s.pos.toNat bs).read j = (s.buf.writeBytes s.pos.toNat bs).read j := by
  have hpos := h.pos_le_len
  rw [State.putAtCursor_len_toNat room] at hj
  exact Memory.read_writeBytes_congr h.buf_wf hm bs fun hout => hv j (by omega)

/-- An effect leaves two states that differ in invalid bytes only in two such states. -/
theorem sameButInvalid_of_effect {i : Instr} {u : State → State} (hu : Effect s i u) (h : Inv s) (hm : m.wf = true)
    (hv : ∀ j, j < s.len.toNat → m.read j = s.buf.read j) : SameButInvalid (u s) (u { s with buf := m }) where
  rest := by cases hu <;> rfl
  valid := by
    cases hu with
    | clrb | reset => exact fun j hj => absurd hj (Nat.not_lt_zero j)
    | putb _ _ room => exact putAtCursor_valid h hm hv (bs := [_]) room
    | ckapp _ _ room => exact putAtCursor_valid h hm hv (bs := [_]) room
    | encode c x4 imm room => exact putAtCursor_valid h hm hv (bs := pack c imm x4) (by simpa using room)
    | @assemble _ _ _ _ _ frame =>
      intro j hj
      have hlt : j < frame.length := hj.trans_le (Nat.mod_le ..)
      exact Memory.read_writeBytes_congr h.buf_wf hm frame fun hout => absurd ⟨Nat.zero_le j, by omega⟩ hout
    | _ => exact hv

theorem sameOnReadPort_of_valid (hv : ∀ j, j < s.len.toNat → m.read j = s.buf.read j) :
    SameOnReadPort s { s with buf := m } := by
  intro space index
  have hbuf : s.readBuffer index = ({ s with buf := m } : State).readBuffer index := by
    unfold State.readBuffer
    split
    · next hlt => rw [← hv index.toNat hlt]
    · rfl
  unfold hostRead
  rw [hbuf]
  rfl

end valid

/-- Settles O13: the step has one effect in both states, and what the effect writes comes from valid bytes. -/
theorem invalidBytesAreUnobservable : Obligations.InvalidBytesAreUnobservable := by
  intro s t s' hs ht hsame hst
  obtain ⟨m, rfl, hv⟩ := sameButInvalid_iff.1 hsame
  suffices ∃ t', step { s with buf := m } = .next t' ∧ SameButInvalid s' t' by
    obtain ⟨t', hst', hsame'⟩ := this
    obtain ⟨m', rfl, hv'⟩ := sameButInvalid_iff.1 hsame'
    exact ⟨_, hst', hsame', sameOnReadPort_of_valid hv'⟩
  obtain ⟨hin, rfl⟩ | ⟨rest, i, u, hu, rfl, hex⟩ := step_cases hst
  · exact ⟨_, step_of_idle hin, hsame⟩
  · exact ⟨_, hex _ (readsAlike_of_valid hs.pos_le_len hv) rfl,
      sameButInvalid_of_effect hu { hs with } ht.buf_wf hv⟩

/-! ## Reset -/

theorem afterReset_resetBlock (s : State) : AfterReset s s.resetBlock :=
  ⟨rfl, rfl, rfl, rfl, rfl, rfl, rfl, rfl, rfl, rfl, rfl, rfl, rfl, fun _ => by simp, rfl, rfl, rfl⟩

/-- Settles O8. -/
theorem resetInputActsAsTheResetCommand : Obligations.ResetInputActsAsTheResetCommand :=
  ⟨fun _ _ h => ⟨_, step_of_resetInput h, afterReset_resetBlock _, rfl⟩, fun _ h => step_of_idle h⟩

/-! ## The read port -/

theorem readBuffer_eq (s : State) (i : BitVec 16) :
    s.readBuffer i = if i.toNat < s.len.toNat then (s.buf.read i.toNat).setWidth 32 else 0#32 := rfl

/-- Settles O23. -/
theorem resetGivesTheResetValues : Obligations.ResetGivesTheResetValues := by
  refine ⟨fun s => ⟨_, rfl, afterReset_resetBlock s⟩, afterReset_resetBlock State.reset, rfl, rfl, fun i => ?_⟩
  exact (readBuffer_eq State.reset i).trans (if_neg (Nat.not_lt_zero _))

/-- `STATUS` read as a number: `ERR`, and 16 for `FAULT` (10_state.md R33). -/
theorem status_setWidth (s : State) :
    s.status.setWidth 32 = BitVec.ofNat 32 (s.err.toNat + if s.faultBit then 16 else 0) := by
  unfold State.status
  generalize s.err = e
  cases s.faultBit <;> revert e <;> decide

/-- Register numbers above that of `ID` name no register (R35). -/
theorem readRegister_of_ge (s : State) {n : BitVec 16} (h : 13 ≤ n.toNat) : s.readRegister n = 0#32 := by
  obtain ⟨k, hk⟩ := Nat.exists_eq_add_of_le' h
  rw [State.readRegister, hk]
  rfl

/-- The fields of an index of space 2 as numbers (R41): the entry, the field, and the bits that must be 0. -/
theorem readTable_eq (s : State) (index : BitVec 16) :
    s.readTable index =
      if 256 ≤ index.toNat then 0#32
      else if index.toNat / 64 % 4 = 0 then s.tab[index.toNat % 64].addr.setWidth 32
      else if index.toNat / 64 % 4 = 1 then s.tab[index.toNat % 64].val
      else if index.toNat / 64 % 4 = 2 then s.tab[index.toNat % 64].rc.setWidth 32
      else 0#32 := by
  have hlt := index.isLt
  have hentry : (index.extractLsb' 0 6).toNat = index.toNat % 64 := by simp [BitVec.extractLsb'_toNat]
  have hfield (k : BitVec 2) : index.extractLsb' 6 2 = k ↔ index.toNat / 64 % 4 = k.toNat := by
    simp [← BitVec.toNat_inj, BitVec.extractLsb'_toNat, Nat.shiftRight_eq_div_pow]
  have hupper : index.extractLsb' 8 8 ≠ 0#8 ↔ 256 ≤ index.toNat := by
    simp only [ne_eq, ← BitVec.toNat_inj, BitVec.extractLsb'_toNat, Nat.shiftRight_eq_div_pow, BitVec.toNat_ofNat]
    omega
  simp [State.readTable, hentry, hfield, hupper]

/-- Field `k` of entry `e` has the index `64 k + e` (R41). -/
theorem readTable_field (s : State) (e : Fin 64) {k : Nat} (hk : k < 4) :
    s.readTable (BitVec.ofNat 16 (0x40 * k + e.val)) =
      if k = 0 then s.tab[e].addr.setWidth 32 else if k = 1 then s.tab[e].val
      else if k = 2 then s.tab[e].rc.setWidth 32 else 0#32 := by
  have he := e.isLt
  have hindex : (BitVec.ofNat 16 (0x40 * k + e.val)).toNat = 64 * k + e.val := by
    rw [BitVec.toNat_ofNat]
    omega
  have hfield : (64 * k + e.val) / 64 % 4 = k := by omega
  have hentry : (64 * k + e.val) % 64 = e.val := by omega
  rw [readTable_eq, if_neg (by omega)]
  simp [hindex, hfield, hentry]

theorem readTable_of_ge (s : State) {index : BitVec 16} (h : 0xC0 ≤ index.toNat) : s.readTable index = 0#32 := by
  rw [readTable_eq]
  by_cases hupper : 256 ≤ index.toNat
  · rw [if_pos hupper]
  · have hfield : index.toNat / 64 % 4 = 3 := by omega
    simp [hfield]

theorem hostRead_table (index : BitVec 16) (s : State) : hostRead 2#2 index s = s.readTable index := rfl

/-- Settles O59, space by space. -/
theorem readPortValues : Obligations.ReadPortValues := by
  intro s
  refine ⟨⟨rfl, rfl, rfl, rfl, rfl, rfl, rfl, status_setWidth s, rfl, rfl, rfl, rfl, rfl,
    fun n hn => readRegister_of_ge s hn⟩, readBuffer_eq s, fun e => ⟨?_, ?_, ?_⟩, fun i hi => readTable_of_ge s hi,
    fun _ => rfl⟩
  · simpa [hostRead_table] using readTable_field s e (k := 0) (by decide)
  · exact readTable_field s e (k := 1) (by decide)
  · exact readTable_field s e (k := 2) (by decide)

end Sys2Proof.Machine
end

section
/-! PROOF. The buffer as memory (20_memory.md): what a command stores to it, what a group read at another width gives,
and two words at once. -/

namespace Sys2Proof.Machine

/-! ## Two words at once -/

/-- Settles O9: the step takes the event and stops. -/
theorem simultaneousCommandsHaveNoStep : Obligations.SimultaneousCommandsHaveNoStep :=
  fun _ _ _ _ h => step_of_together h

/-! ## The bytes a command stores to -/

theorem storeSpan_encCommand (c : CodecWidth) (x4 : BitVec 4) (imm : BitVec 32) (s : State) :
    storeSpan (encCommand c x4 imm) s = (s.pos.toNat, c.nsym) := by
  cases c <;> rfl

theorem storeSpan_assembleCommand (op : FrameOp) {wf : BitVec 2} {w : FrameWidth} (hw : FrameWidth.ofField wf = some w)
    (seq count : Six) (s : State) :
    storeSpan (assembleCommand op wf seq count) s = (0, 7 + count.toNat * requestEntrySize op w) := by
  cases op with
  | read => rfl
  | write => simp [assembleCommand, storeSpan, hw, requestEntrySize]

/-- An effect leaves the buffer alone, or fills the command's span and stores nothing else (R65). -/
theorem Effect.buf_written {s : State} {i : Instr} {u : State → State} (h : Effect s i u) :
    (u s).buf = s.buf ∨
      ∃ bs : List Byte, bs.length = (storeSpan i s).2 ∧ (u s).buf = s.buf.writeBytes (storeSpan i s).1 bs := by
  cases h with
  | putb | ckapp => exact .inr ⟨[_], rfl, rfl⟩
  | encode c x4 imm => exact .inr ⟨pack c imm x4, by simp [storeSpan_encCommand]⟩
  | @assemble op _ seq count _ frame width length =>
    exact .inr ⟨frame, by simp [storeSpan_assembleCommand op width seq count s, length]⟩
  | _ => exact .inl rfl

/-- Settles O16: every effect stores within the span of its command. -/
theorem bytesOutsideTheStoreAreKept : Obligations.BytesOutsideTheStoreAreKept := by
  intro i s t hwf hex j hout
  obtain ⟨u, hu, rfl⟩ := effect_of_exec hex
  obtain hbuf | ⟨bs, hlen, hbuf⟩ := hu.buf_written
  · rw [hbuf]
  · rw [hbuf, Memory.read_writeBytes bs hwf, dif_neg (by omega)]

/-! ## A group decoded at another width

A group is only its number (41_radix64_codec.md R123, R124), so another width of as many symbols splits that number at
another bit. -/

/-- The number of a group is the number that was packed, when the group has room for it. -/
theorem symbolsValue_pack {c : CodecWidth} {v : BitVec 32} {x : BitVec 4} {g : Nat}
    (hg : x.toNat * 2 ^ c.bits + v.toNat = g) (hlt : g < 64 ^ c.nsym) : symbolsValue (pack c v x) = g := by
  rw [pack, symbolsValue_symbols, hg, Nat.mod_eq_of_lt hlt]

/-- A decode of valid bytes completes with what `unpack` makes of them (R131). -/
theorem exec_decCommand_of_valid {c : CodecWidth} {s : State} (h : s.pos.toNat + c.nsym ≤ s.len.toNat) :
    ∃ t, exec (decCommand c) s = .next t ∧ t.a = (unpack c (s.buf.readBytes s.pos.toNat c.nsym)).1 ∧
      t.x = (unpack c (s.buf.readBytes s.pos.toNat c.nsym)).2 ∧ t.err = 0#4 := by
  obtain ⟨hlt, -⟩ | ⟨-, hdec⟩ := decodeStep_cases c s
  · omega
  · exact ⟨_, (exec_decCommand c s).trans (congrArg _ hdec), rfl, rfl, rfl⟩

/-- The 12-bit value of an 8-bit group has the extra bits above the value. -/
theorem unpack_w12_pack_w8 (v : BitVec 8) (x : BitVec 4) :
    (unpack .w12 (pack .w8 (v.setWidth 32) x)).1 = (x ++ v).setWidth 32 := by
  have hv : (v.setWidth 32).toNat = v.toNat := BitVec.toNat_setWidth_of_le (by decide)
  have happ : (x ++ v).toNat = x.toNat * 2 ^ 8 + v.toNat := by
    rw [BitVec.toNat_append, ← Nat.shiftLeft_add_eq_or_of_lt v.isLt, Nat.shiftLeft_eq]
  have hnum : symbolsValue (pack .w8 (v.setWidth 32) x) = (x ++ v).toNat :=
    symbolsValue_pack (by rw [hv, happ, CodecWidth.bits]) (x ++ v).isLt
  rw [unpack, hnum, CodecWidth.bits, Nat.mod_eq_of_lt (x ++ v).isLt, BitVec.ofNat_toNat]

/-- The 8-bit value of a 12-bit group is its low 8 bits, and the 4 bits above them are the extra bits. -/
theorem unpack_w8_pack_w12 (addr : BitVec 12) :
    unpack .w8 (pack .w12 (addr.setWidth 32) 0#4) = ((addr.extractLsb' 0 8).setWidth 32, addr.extractLsb' 8 4) := by
  have hv : (addr.setWidth 32).toNat = addr.toNat := BitVec.toNat_setWidth_of_le (by decide)
  have hnum : symbolsValue (pack .w12 (addr.setWidth 32) 0#4) = addr.toNat :=
    symbolsValue_pack (by simp [hv]) addr.isLt
  rw [unpack, hnum]
  ext1 <;> apply BitVec.eq_of_toNat_eq
  · simp [CodecWidth.bits]
  · simp [CodecWidth.bits, Nat.shiftRight_eq_div_pow]

/-- Settles O38, by what `unpack` makes of a group packed at the other width. -/
theorem mixedWidthDecodes : Obligations.MixedWidthDecodes := by
  refine ⟨fun v x s hlen hbytes => ?_, fun addr s hlen hbytes => ?_⟩
  · obtain ⟨t, hex, ha, -, herr⟩ := exec_decCommand_of_valid (c := .w12) hlen
    exact ⟨t, hex, ha.trans (by rw [CodecWidth.nsym, hbytes, unpack_w12_pack_w8]), herr⟩
  · obtain ⟨t, hex, ha, hx, herr⟩ := exec_decCommand_of_valid (c := .w8) hlen
    rw [CodecWidth.nsym, hbytes, unpack_w8_pack_w12] at ha hx
    exact ⟨t, hex, ha, hx, herr⟩

end Sys2Proof.Machine
end

section
/-! PROOF. The encoding (30_encoding.md): decoder and encoder are inverse to each other, the decoder agrees with the
opcode table, and a word that is no command raises `Fault(E_ILLEGAL)`. -/

namespace Sys2Proof

/-! ## The bits of a field

The formats of R91 to R95 divide the word into fields; a field is the mask of its bits, so that what a format says of a
word is an equation between masked words. -/

/-- The bits `lo` to `lo + n - 1` of a word. -/
def fieldMask (lo n : Nat) : CmdWord := place (BitVec.allOnes n) lo

/-- A field put back where it was cut from. -/
theorem place_extractLsb' (c : CmdWord) (lo n : Nat) : place (c.extractLsb' lo n) lo = c &&& fieldMask lo n := by
  refine BitVec.eq_of_getLsbD_eq fun j hj => ?_
  simp only [fieldMask, BitVec.getLsbD_and, getLsbD_place _ _ _ hj, BitVec.getLsbD_extractLsb', BitVec.getLsbD_allOnes]
  by_cases hlo : lo ≤ j
  · simp [hlo, Bool.and_comm]
  · simp [hlo]

theorem extractLsb'_place {lo n : Nat} (v : BitVec n) (h : lo + n ≤ 64) : (place v lo).extractLsb' lo n = v := by
  refine extract_eq _ _ _ fun i hi => ?_
  simp [getLsbD_place v lo (lo + i) (by omega)]

/-- A field has a value exactly when the word, masked to the field, is that value in its place. -/
theorem extractLsb'_eq_iff {lo n : Nat} (c : CmdWord) (v : BitVec n) (h : lo + n ≤ 64) :
    c.extractLsb' lo n = v ↔ c &&& fieldMask lo n = place v lo := by
  rw [← place_extractLsb']
  exact ⟨fun hv => by rw [hv], fun hp => by rw [← extractLsb'_place v h, ← hp, extractLsb'_place _ h]⟩

theorem extractLsb'_eq_zero_iff {lo n : Nat} (c : CmdWord) (h : lo + n ≤ 64) :
    c.extractLsb' lo n = 0#n ↔ c &&& fieldMask lo n = 0#64 := by
  rw [extractLsb'_eq_iff c 0#n h]
  simp [place]

/-- Bits 63:56, the same in every format (R90). -/
def opcodeMask : CmdWord := fieldMask 56 8

theorem opcodeMask_getLsbD {k : Nat} (hk : k < 56) : opcodeMask.getLsbD k = false := by
  rw [opcodeMask, fieldMask, getLsbD_place _ _ _ (by omega)]
  simp [show ¬ 56 ≤ k by omega]

/-! ## The bits of a format -/

/-- The bits that the format marks reserved (R91 to R95). -/
def Shape.reservedMask : Shape → CmdWord
  | .n _ => fieldMask 0 56
  | .v _ => fieldMask 32 20
  | .g _ => fieldMask 48 8 ||| fieldMask 0 16
  | .f _ => fieldMask 50 6 ||| fieldMask 46 2 ||| fieldMask 38 2 ||| fieldMask 0 32
  | .t _ => fieldMask 50 2

/-- The bits of the format's operand fields (R91 to R95). -/
def Shape.operandMask : Shape → CmdWord
  | .n _ => 0#64
  | .v _ => fieldMask 52 4 ||| fieldMask 0 32
  | .g _ => fieldMask 32 16 ||| fieldMask 16 16
  | .f _ => fieldMask 48 2 ||| fieldMask 40 6 ||| fieldMask 32 6
  | .t _ => fieldMask 52 4 ||| fieldMask 44 6 ||| fieldMask 32 12 ||| fieldMask 0 32

/-- The word of the format with the given opcode and the operand fields of `c`. -/
def Shape.wordOf (sh : Shape) (opc : BitVec 8) (c : CmdWord) : CmdWord :=
  match sh with
  | .n _ => wordN opc
  | .v _ => wordV opc (c.extractLsb' 52 4) (c.extractLsb' 0 32)
  | .g _ => wordG opc (c.extractLsb' 32 16) (c.extractLsb' 16 16)
  | .f _ => wordF opc (c.extractLsb' 48 2) (c.extractLsb' 40 6) (c.extractLsb' 32 6)
  | .t _ => wordT opc (c.extractLsb' 52 4) (c.extractLsb' 44 6) (c.extractLsb' 32 12) (c.extractLsb' 0 32)

/-- No bit of a format is left out: each belongs to the opcode, to an operand or to the reserved bits. -/
theorem Shape.masks_cover (sh : Shape) : opcodeMask ||| sh.operandMask ||| sh.reservedMask = BitVec.allOnes 64 := by
  cases sh <;> simp only [Shape.operandMask, Shape.reservedMask] <;> decide

theorem Shape.opcodeMask_and_reservedMask (sh : Shape) : opcodeMask &&& sh.reservedMask = 0#64 := by
  cases sh <;> simp only [Shape.reservedMask] <;> decide

theorem Shape.reservedClear_iff (sh : Shape) (c : CmdWord) :
    sh.reservedClear c = true ↔ c &&& sh.reservedMask = 0#64 := by
  cases sh <;>
    simp [Shape.reservedClear, Shape.reservedMask, BitVec.and_or_distrib_left, extractLsb'_eq_zero_iff, and_assoc]

theorem Shape.wordOf_opcodeField (sh : Shape) (c : CmdWord) :
    sh.wordOf (opcodeField c) c = c &&& (opcodeMask ||| sh.operandMask) := by
  cases sh <;>
    simp [Shape.wordOf, Shape.operandMask, wordN, wordV, wordG, wordF, wordT, opcodeField, opcodeMask,
      place_extractLsb', BitVec.and_or_distrib_left, BitVec.or_assoc]

/-- A word whose reserved bits are 0 is made of its opcode and its operand fields. -/
theorem Shape.wordOf_of_reservedClear {sh : Shape} {c : CmdWord} (h : sh.reservedClear c = true) :
    sh.wordOf (opcodeField c) c = c :=
  calc sh.wordOf (opcodeField c) c
      = c &&& (opcodeMask ||| sh.operandMask) ||| c &&& sh.reservedMask := by
        rw [sh.wordOf_opcodeField, (sh.reservedClear_iff c).1 h, BitVec.or_zero]
    _ = c := by rw [← BitVec.and_or_distrib_left, sh.masks_cover, BitVec.and_allOnes]

/-! ## The opcode map -/

/-- No opcode stands twice in the map (R97). -/
theorem opcodeMap_nodup : (opcodeMap.map Prod.fst).Nodup := by decide

/-- The lookup finds every row of the map, because no other row has its opcode. -/
theorem opcodeMap_lookup_iff {opc : BitVec 8} {sh : Shape} :
    opcodeMap.lookup opc = some sh ↔ (opc, sh) ∈ opcodeMap := by
  constructor
  · intro h
    obtain ⟨l₁, l₂, hl, -⟩ := List.lookup_eq_some_iff.1 h
    simp [hl]
  · intro hmem
    cases h : opcodeMap.lookup opc with
    | none => simpa using List.lookup_eq_none_iff.1 h _ hmem
    | some sh' =>
      obtain ⟨l₁, l₂, hl, -⟩ := List.lookup_eq_some_iff.1 h
      have hmem' : (opc, sh') ∈ opcodeMap := by simp [hl]
      obtain ⟨-, rfl⟩ := Prod.mk.inj (List.inj_on_of_nodup_map opcodeMap_nodup hmem hmem' rfl)
      rfl

/-- The encoder writes the command of a row in the row's format and with the row's opcode. -/
theorem encode_cut {opc : BitVec 8} {sh : Shape} (h : (opc, sh) ∈ opcodeMap) (c : CmdWord) :
    encode (sh.cut c) = sh.wordOf opc c := by
  fin_cases h <;> rfl

/-! ## Decoding -/

theorem decode_eq_ok_iff {c : CmdWord} {i : Instr} :
    decode c = .ok i ↔ ∃ sh, (opcodeField c, sh) ∈ opcodeMap ∧ sh.reservedClear c = true ∧ sh.cut c = i := by
  simp only [← opcodeMap_lookup_iff, decode]
  cases opcodeMap.lookup (opcodeField c) with
  | none => simp
  | some sh => by_cases h : sh.reservedClear c = true <;> simp [h]

theorem decode_of_row {c : CmdWord} {opc : BitVec 8} {sh : Shape} (hopc : opcodeField c = opc)
    (hrow : opcodeMap.lookup opc = some sh) (hres : sh.reservedClear c = true) : decode c = .ok (sh.cut c) :=
  decode_eq_ok_iff.2 ⟨sh, opcodeMap_lookup_iff.1 (hopc ▸ hrow), hres, rfl⟩

section formats

variable {opc : BitVec 8}

theorem decode_wordN {i : Instr} (h : opcodeMap.lookup opc = some (.n i)) : decode (wordN opc) = .ok i :=
  decode_of_row (opcodeField_wordN opc) h (by simp [Shape.reservedClear, wordN_reserved0])

theorem decode_wordV {mk : BitVec 4 → BitVec 32 → Instr} (h : opcodeMap.lookup opc = some (.v mk)) (x4 : BitVec 4)
    (imm : BitVec 32) : decode (wordV opc x4 imm) = .ok (mk x4 imm) := by
  rw [decode_of_row (opcodeField_wordV opc x4 imm) h (by simp [Shape.reservedClear, wordV_reserved32]), Shape.cut,
    wordV_x4, wordV_imm]

theorem decode_wordG {mk : BitVec 16 → BitVec 16 → Instr} (h : opcodeMap.lookup opc = some (.g mk))
    (s e : BitVec 16) : decode (wordG opc s e) = .ok (mk s e) := by
  rw [decode_of_row (opcodeField_wordG opc s e) h (by simp [Shape.reservedClear, wordG_reserved48, wordG_reserved0]),
    Shape.cut, wordG_s, wordG_e]

theorem decode_wordF {mk : BitVec 2 → BitVec 6 → BitVec 6 → Instr} (h : opcodeMap.lookup opc = some (.f mk))
    (w : BitVec 2) (seq count : BitVec 6) : decode (wordF opc w seq count) = .ok (mk w seq count) := by
  rw [decode_of_row (opcodeField_wordF opc w seq count) h (by simp [Shape.reservedClear, wordF_reserved50,
    wordF_reserved46, wordF_reserved38, wordF_reserved0]), Shape.cut, wordF_w, wordF_seq, wordF_count]

theorem decode_wordT {mk : BitVec 4 → BitVec 6 → BitVec 12 → BitVec 32 → Instr}
    (h : opcodeMap.lookup opc = some (.t mk)) (rc : BitVec 4) (idx : BitVec 6) (addr : BitVec 12) (val : BitVec 32) :
    decode (wordT opc rc idx addr val) = .ok (mk rc idx addr val) := by
  rw [decode_of_row (opcodeField_wordT opc rc val idx addr) h (by simp [Shape.reservedClear, wordT_reserved50]),
    Shape.cut, wordT_x4, wordT_idx, wordT_addr, wordT_imm]

end formats

/-- Settles O1, format by format: the encoder uses the format and the opcode that the map gives the command. -/
theorem decodeOfEncodeIsTheCommand : Obligations.DecodeOfEncodeIsTheCommand := by
  intro i
  cases i with
  | nop | reset | touch | clrb | getb | dec6 | dec8 | dec12 | dec16 | dec32 | crcinit | crcfin | parserd | parsewr =>
    exact decode_wordN rfl
  | setpos | putb | enc6 | enc8 | enc12 | enc16 | enc32 | crcupdb | crcupdw | crcvfy => exact decode_wordV rfl _ _
  | cksum | ckapp | ckvfy | crcupdr => exact decode_wordG rfl _ _
  | asmrd | asmwr => exact decode_wordF rfl _ _ _
  | tabw => exact decode_wordT rfl _ _ _ _

/-- Settles O2: the word of the decoded command has the opcode and the operand fields of the word, and the decoder has
checked that the other bits are 0. -/
theorem encodeOfDecodeIsTheWord : Obligations.EncodeOfDecodeIsTheWord := by
  intro c i h
  obtain ⟨sh, hrow, hres, rfl⟩ := decode_eq_ok_iff.1 h
  rw [encode_cut hrow, Shape.wordOf_of_reservedClear hres]

/-- Settles O6: each word is the word of its command, and O1 decodes it. -/
theorem wordsOfTheSpecDecode : Obligations.WordsOfTheSpecDecode := by
  have decodes {c : CmdWord} {i : Instr} (h : encode i = c) : decode c = .ok i := h ▸ decodeOfEncodeIsTheCommand i
  exact ⟨decodes rfl, decodes rfl, decodes rfl, decodes rfl, decodes rfl, decodes rfl, decodes rfl, decodes rfl⟩

/-! ## The opcode table -/

/-- The mnemonic of a row of the opcode map. -/
def Shape.mnemonic (sh : Shape) : String := (sh.cut 0#64).mnemonic

/-- The row of the opcode table that a row of the opcode map stands for. -/
def tableRowOf (p : BitVec 8 × Shape) : TableRow := ⟨p.2.mnemonic, place p.1 56, opcodeMask ||| p.2.reservedMask⟩

/-- The transcribed table lists the rows of the map: the masks are the opcode and the reserved bits of the formats. -/
theorem opcodeTable_eq : opcodeTable = opcodeMap.map tableRowOf := by decide

/-- No mnemonic stands twice in the map (R97). -/
theorem mnemonic_nodup : (opcodeMap.map (·.2.mnemonic)).Nodup := by decide

theorem mnemonic_cut {opc : BitVec 8} {sh : Shape} (h : (opc, sh) ∈ opcodeMap) (c : CmdWord) :
    (sh.cut c).mnemonic = sh.mnemonic := by
  fin_cases h <;> rfl

theorem opcodeField_place (opc : BitVec 8) : opcodeField (place opc 56) = opc := opcodeField_wordN opc

/-- Two disjoint masks are compared at once when the value lies in the first. -/
theorem and_or_eq_iff {c m r v : CmdWord} (hv : v &&& m = v) (hmr : m &&& r = 0#64) :
    c &&& (m ||| r) = v ↔ c &&& m = v ∧ c &&& r = 0#64 := by
  rw [BitVec.and_or_distrib_left]
  constructor
  · intro h
    have hr : c &&& r = 0#64 :=
      calc c &&& r = (c &&& m ||| c &&& r) &&& r := by
            rw [← BitVec.and_or_distrib_left, BitVec.and_assoc, BitVec.and_comm (m ||| r) r, BitVec.and_or_distrib_left,
              BitVec.and_comm r m, hmr, BitVec.and_self, BitVec.zero_or]
        _ = v &&& (m &&& r) := by rw [h, ← BitVec.and_assoc, hv]
        _ = 0#64 := by rw [hmr, BitVec.and_zero]
    exact ⟨by rwa [hr, BitVec.or_zero] at h, hr⟩
  · rintro ⟨hm, hr⟩
    rw [hm, hr, BitVec.or_zero]

/-- A word matches a row of the table exactly when it has the row's opcode and 0 in the format's reserved bits. -/
theorem and_maskBits_tableRowOf_iff (c : CmdWord) (opc : BitVec 8) (sh : Shape) :
    c &&& (tableRowOf (opc, sh)).maskBits = (tableRowOf (opc, sh)).matchBits ↔
      opcodeField c = opc ∧ sh.reservedClear c = true := by
  have hopc (d : CmdWord) : opcodeField d = opc ↔ d &&& opcodeMask = place opc 56 :=
    extractLsb'_eq_iff d opc (by decide)
  rw [hopc, sh.reservedClear_iff]
  exact and_or_eq_iff ((hopc _).1 (opcodeField_place opc)) sh.opcodeMask_and_reservedMask

/-- Settles O3: both sides say that the word has the row's opcode and reserved bits 0, the right one because no two rows
have the same mnemonic. -/
theorem decodeAgreesWithOpcodeTable : Obligations.DecodeAgreesWithOpcodeTable := by
  intro c row hrow
  rw [opcodeTable_eq] at hrow
  obtain ⟨⟨opc, sh⟩, hmem, rfl⟩ := List.mem_map.1 hrow
  rw [and_maskBits_tableRowOf_iff]
  constructor
  · rintro ⟨rfl, hres⟩
    exact ⟨sh.cut c, decode_eq_ok_iff.2 ⟨sh, hmem, hres, rfl⟩, mnemonic_cut hmem c⟩
  · rintro ⟨i, hdec, hname⟩
    obtain ⟨sh', hmem', hres, rfl⟩ := decode_eq_ok_iff.1 hdec
    rw [mnemonic_cut hmem' c] at hname
    obtain ⟨rfl, rfl⟩ := Prod.mk.inj (List.inj_on_of_nodup_map mnemonic_nodup hmem' hmem hname)
    exact ⟨rfl, hres⟩

/-! ## Words that are no command -/

/-- The reserved opcodes as R98 lists them. -/
def ReservedOpcode (o : Nat) : Prop :=
  (0x03 ≤ o ∧ o ≤ 0x07) ∨ (0x0D ≤ o ∧ o ≤ 0x0F) ∨ (0x15 ≤ o ∧ o ≤ 0x17) ∨ (0x1D ≤ o ∧ o ≤ 0x1F) ∨
    (0x23 ≤ o ∧ o ≤ 0x2F) ∨ (0x36 ≤ o ∧ o ≤ 0x3F) ∨ (0x42 ≤ o ∧ o ≤ 0x47) ∨ (0x4A ≤ o ∧ o ≤ 0xFF)

theorem not_reservedOpcode_of_mem : ∀ p ∈ opcodeMap, ¬ ReservedOpcode p.1.toNat := by
  unfold ReservedOpcode
  decide

theorem decode_of_reservedOpcode {c : CmdWord} (h : ReservedOpcode (opcodeField c).toNat) :
    decode c = .error .reservedOpcode := by
  have hnone : opcodeMap.lookup (opcodeField c) = none :=
    List.lookup_eq_none_iff.2 fun p hp => by
      simpa using fun heq : opcodeField c = p.1 => not_reservedOpcode_of_mem p hp (heq ▸ h)
  simp [decode, hnone]

theorem decode_of_reservedBit {c : CmdWord} {sh : Shape} {k : Nat} (hrow : (opcodeField c, sh) ∈ opcodeMap)
    (hmask : sh.reservedMask.getLsbD k = true) (hbit : c.getLsbD k = true) : decode c = .error .reservedBits := by
  have hres : ¬ sh.reservedClear c = true := fun hclear => by
    have hzero := congrArg (·.getLsbD k) ((sh.reservedClear_iff c).1 hclear)
    simp [hmask, hbit] at hzero
  simp [decode, opcodeMap_lookup_iff.2 hrow, hres]

namespace Machine

/-- What R98 and R99 say of a word that is no command, field by field. -/
theorem execWord_illegal {w : CmdWord} {e : DecodeError} (h : decode w = .error e) (s : State) :
    execWord w s = .next { s with err := 12#4, faultBit := true } :=
  execWord_of_decode_error h s

/-- Settles O4. -/
theorem reservedOpcodeRaisesIllegal : Obligations.ReservedOpcodeRaisesIllegal := by
  rintro s w ⟨_, rfl, hres⟩
  exact execWord_illegal (decode_of_reservedOpcode hres) s

/-- Settles O5: below bit 56 the mask of a row is the reserved bits of its format. -/
theorem reservedBitRaisesIllegal : Obligations.ReservedBitRaisesIllegal := by
  rintro s w row hrow hopc ⟨k, hk, hmask, hbit⟩
  rw [opcodeTable_eq] at hrow
  obtain ⟨⟨opc, sh⟩, hmem, rfl⟩ := List.mem_map.1 hrow
  obtain rfl : opcodeField w = opc := hopc.trans (opcodeField_place opc)
  have hreserved : sh.reservedMask.getLsbD k = true := by
    simpa [tableRowOf, opcodeMask_getLsbD hk] using hmask
  exact execWord_illegal (decode_of_reservedBit hmem hreserved hbit) s

end Machine

end Sys2Proof
end

section
/-! PROOF. The Radix64 codec (41_radix64_codec.md): the alphabet, groups as numbers and as bit strings, and the ten
commands. -/

namespace Sys2Proof.Machine

/-! ## The alphabet -/

/-- The symbol of a byte's value is the byte, or `'0'` for a byte outside the alphabet (R121). -/
theorem sym_val (b : Byte) : sym (val b) = if isSymbol b then b else 0x30#8 := by
  revert b
  decide

theorem sym_val_eq_self_iff {b : Byte} : sym (val b) = b ↔ isSymbol b = true := by
  refine ⟨fun h => h ▸ isSymbol_sym (val b), fun h => ?_⟩
  rw [sym_val, if_pos h]

/-- Settles O41: each range of the alphabet is one branch of `sym`. -/
theorem alphabetAndItsInverse : Obligations.AlphabetAndItsInverse := by
  refine ⟨fun v h => ?_, fun v hlo hhi => ?_, fun v hlo hhi => ?_, by decide, by decide, val_sym, sym_val⟩
  · rw [sym, if_pos h, BitVec.ofNat_add, BitVec.ofNat_toNat]
  · rw [sym, if_neg (by omega), if_pos hhi]
    bv_omega
  · rw [sym, if_neg (by omega), if_neg (by omega), if_pos hhi]
    bv_omega

/-! ## A group as a number (R123, R124) -/

/-- The last symbol is the number's lowest digit, the symbols before it are those of the number without that digit. -/
theorem symbols_succ_eq_append (n g : Nat) : symbols (n + 1) g = symbols n (g / 64) ++ [sym (BitVec.ofNat 6 g)] := by
  induction n with
  | zero => rfl
  | succ n ih =>
    have hdigit : g >>> (6 * (n + 1)) = (g / 64) >>> (6 * n) := by
      rw [show g / 64 = g >>> 6 from (Nat.shiftRight_eq_div_pow g 6).symm, ← Nat.shiftRight_add]
      congr 1
      omega
    rw [symbols, ih, hdigit]
    rfl

/-- Writing a list's number again gives the symbol of each byte's value. -/
theorem symbols_symbolsValue (bs : List Byte) : symbols bs.length (symbolsValue bs) = bs.map fun b => sym (val b) := by
  induction bs using List.reverseRecOn with
  | nil => rfl
  | append_singleton bs b ih =>
    have hlt : (val b).toNat < 64 := (val b).isLt
    have hquot : (symbolsValue bs * 64 + (val b).toNat) / 64 = symbolsValue bs := by omega
    have hdigit : BitVec.ofNat 6 (symbolsValue bs * 64 + (val b).toNat) = val b := by
      apply BitVec.eq_of_toNat_eq
      rw [BitVec.toNat_ofNat]
      omega
    rw [List.length_append, List.length_singleton, symbols_succ_eq_append, foldl_val_append, hquot, hdigit, ih,
      List.map_append, List.map_singleton]

/-- The bits of a group are the value's bits and the extra bits (R122). -/
theorem CodecWidth.pow_nsym (c : CodecWidth) : 64 ^ c.nsym = 2 ^ c.xbits * 2 ^ c.bits := by
  cases c <;> rfl

theorem CodecWidth.bits_le (c : CodecWidth) : c.bits ≤ 32 := by
  cases c <;> decide

theorem CodecWidth.xbits_le (c : CodecWidth) : c.xbits ≤ 4 := by
  cases c <;> decide

/-- `unpack` undoes `pack`: the packed number has room in the group, and division takes it apart (R137). -/
theorem unpack_pack {c : CodecWidth} {v : BitVec 32} {x : BitVec 4} (hv : v.toNat < 2 ^ c.bits)
    (hx : x.toNat < 2 ^ c.xbits) : unpack c (pack c v x) = (v, x) := by
  have hroom : x.toNat * 2 ^ c.bits + v.toNat < 64 ^ c.nsym := by
    calc x.toNat * 2 ^ c.bits + v.toNat < (x.toNat + 1) * 2 ^ c.bits := by rw [Nat.succ_mul]; omega
      _ ≤ 2 ^ c.xbits * 2 ^ c.bits := Nat.mul_le_mul_right _ hx
      _ = 64 ^ c.nsym := c.pow_nsym.symm
  have hquot : (x.toNat * 2 ^ c.bits + v.toNat) / 2 ^ c.bits = x.toNat := by
    rw [Nat.add_comm, Nat.add_mul_div_right _ _ (Nat.two_pow_pos _), Nat.div_eq_of_lt hv, Nat.zero_add]
  rw [unpack, symbolsValue_pack rfl hroom, Nat.mul_add_mod_of_lt hv, hquot, BitVec.ofNat_toNat, BitVec.ofNat_toNat,
    BitVec.setWidth_eq, BitVec.setWidth_eq]

/-- `pack` after `unpack` writes the list's number again: value and extra bits keep every bit of it. -/
theorem pack_unpack {c : CodecWidth} {bs : List Byte} (h : bs.length = c.nsym) :
    pack c (unpack c bs).1 (unpack c bs).2 = bs.map fun b => sym (val b) := by
  have hg : symbolsValue bs < 2 ^ c.xbits * 2 ^ c.bits := c.pow_nsym ▸ h ▸ symbolsValue_lt bs
  have hv : (unpack c bs).1.toNat = symbolsValue bs % 2 ^ c.bits :=
    Nat.mod_eq_of_lt ((Nat.mod_lt _ (Nat.two_pow_pos _)).trans_le (Nat.pow_le_pow_right (by decide) c.bits_le))
  have hx : (unpack c bs).2.toNat = symbolsValue bs / 2 ^ c.bits :=
    Nat.mod_eq_of_lt ((Nat.div_lt_of_lt_mul (Nat.mul_comm _ _ ▸ hg)).trans_le
      (Nat.pow_le_pow_right (by decide) c.xbits_le))
  rw [pack, hv, hx, Nat.div_add_mod', ← h, symbols_symbolsValue]

/-- Settles O40. -/
theorem packAndUnpackRoundTrip : Obligations.PackAndUnpackRoundTrip := by
  refine ⟨fun c v x hv hx => unpack_pack hv hx, fun c bs h => ?_⟩
  calc pack c (unpack c bs).1 (unpack c bs).2 = bs
      ↔ bs.map (fun b => sym (val b)) = bs.map id := by rw [pack_unpack h, List.map_id]
    _ ↔ ∀ b ∈ bs, sym (val b) = b := List.map_inj_left
    _ ↔ ∀ b ∈ bs, isSymbol b = true := by simp only [sym_val_eq_self_iff]

/-! ## A group as a bit string

The commands' rules write the symbols of a group as slices of the operands (R126 to R130), and the group that a decode
reads as the concatenation of the symbols' values (R132 to R136). -/

theorem toNat_append_eq_add {m n : Nat} (x : BitVec m) (y : BitVec n) :
    (x ++ y).toNat = x.toNat * 2 ^ n + y.toNat := by
  rw [BitVec.toNat_append, ← Nat.shiftLeft_add_eq_or_of_lt y.isLt, Nat.shiftLeft_eq]

/-- A symbol's digit that lies within the value's `b` bits. -/
theorem digit_within_value {b k : Nat} (x : Nat) (v : BitVec 32) (h : k + 6 ≤ b) :
    BitVec.ofNat 6 ((x * 2 ^ b + v.toNat) >>> k) = v.extractLsb' k 6 := by
  obtain ⟨d, rfl⟩ := Nat.exists_eq_add_of_le h
  have hshift : (x * 2 ^ (k + 6 + d) + v.toNat) >>> k = v.toNat >>> k + 2 ^ 6 * (x * 2 ^ d) := by
    rw [Nat.shiftRight_eq_div_pow, Nat.shiftRight_eq_div_pow, Nat.add_comm,
      show x * 2 ^ (k + 6 + d) = x * 2 ^ d * 2 ^ 6 * 2 ^ k by ring, Nat.add_mul_div_right _ _ (Nat.two_pow_pos k),
      Nat.mul_comm (2 ^ 6)]
  apply BitVec.eq_of_toNat_eq
  rw [hshift, BitVec.toNat_ofNat, BitVec.extractLsb'_toNat, Nat.add_mul_mod_self_left]

/-- The digit of the topmost symbol: the extra bits, then the `j` bits of the value above bit `k`. -/
theorem digit_of_extra_bits {m k j : Nat} (x : BitVec m) {v : BitVec 32} (hv : v.toNat < 2 ^ (k + j)) :
    BitVec.ofNat (m + j) ((x.toNat * 2 ^ (k + j) + v.toNat) >>> k) = x ++ v.extractLsb' k j := by
  have hshift : (x.toNat * 2 ^ (k + j) + v.toNat) >>> k = x.toNat * 2 ^ j + v.toNat >>> k := by
    rw [Nat.shiftRight_eq_div_pow, Nat.shiftRight_eq_div_pow, Nat.add_comm,
      show x.toNat * 2 ^ (k + j) = x.toNat * 2 ^ j * 2 ^ k by ring, Nat.add_mul_div_right _ _ (Nat.two_pow_pos k),
      Nat.add_comm]
  have hslice : (v.extractLsb' k j).toNat = v.toNat >>> k := by
    rw [BitVec.extractLsb'_toNat, Nat.mod_eq_of_lt]
    rw [Nat.shiftRight_eq_div_pow]
    exact Nat.div_lt_of_lt_mul (Nat.pow_add 2 k j ▸ hv)
  rw [hshift, ← hslice, ← toNat_append_eq_add, BitVec.ofNat_toNat, BitVec.setWidth_eq]

theorem pack_w6 (v : BitVec 32) : pack .w6 v 0#4 = [sym (v.extractLsb' 0 6)] := by
  rw [← digit_within_value 0 v (le_refl (0 + 6))]
  rfl

theorem pack_w8 {v : BitVec 32} (hv : v.toNat < 2 ^ 8) (x : BitVec 4) :
    pack .w8 v x = [sym (x ++ v.extractLsb' 6 2), sym (v.extractLsb' 0 6)] := by
  rw [← digit_of_extra_bits (k := 6) (j := 2) x hv, ← digit_within_value (b := 8) x.toNat v (by decide : 0 + 6 ≤ 8)]
  rfl

theorem pack_w12 (v : BitVec 32) : pack .w12 v 0#4 = [sym (v.extractLsb' 6 6), sym (v.extractLsb' 0 6)] := by
  rw [← digit_within_value (b := 12) 0 v (by decide : 6 + 6 ≤ 12),
    ← digit_within_value (b := 12) 0 v (by decide : 0 + 6 ≤ 12)]
  rfl

/-- Only two of the four extra bits fit. -/
theorem pack_w16 {v : BitVec 32} (hv : v.toNat < 2 ^ 16) {x : BitVec 4} (hx : x.toNat < 4) :
    pack .w16 v x =
      [sym (x.extractLsb' 0 2 ++ v.extractLsb' 12 4), sym (v.extractLsb' 6 6), sym (v.extractLsb' 0 6)] := by
  have hlow : (x.extractLsb' 0 2).toNat = x.toNat := by
    rw [BitVec.extractLsb'_toNat, Nat.shiftRight_zero, Nat.mod_eq_of_lt hx]
  rw [← digit_of_extra_bits (k := 12) (j := 4) (x.extractLsb' 0 2) hv, hlow,
    ← digit_within_value (b := 16) x.toNat v (by decide : 6 + 6 ≤ 16),
    ← digit_within_value (b := 16) x.toNat v (by decide : 0 + 6 ≤ 16)]
  rfl

theorem pack_w32 (v : BitVec 32) (x : BitVec 4) :
    pack .w32 v x = [sym (x ++ v.extractLsb' 30 2), sym (v.extractLsb' 24 6), sym (v.extractLsb' 18 6),
      sym (v.extractLsb' 12 6), sym (v.extractLsb' 6 6), sym (v.extractLsb' 0 6)] := by
  have hdigit {k : Nat} (hk : k + 6 ≤ 32) := (digit_within_value x.toNat v hk).symm
  rw [hdigit (by decide : 24 + 6 ≤ 32), hdigit (by decide : 18 + 6 ≤ 32), hdigit (by decide : 12 + 6 ≤ 32),
    hdigit (by decide : 6 + 6 ≤ 32), hdigit (by decide : 0 + 6 ≤ 32), ← digit_of_extra_bits (k := 30) (j := 2) x v.isLt]
  rfl

/-- One more symbol appends its value's 6 bits. -/
theorem symbolsValue_append_singleton {n : Nat} {g : BitVec n} {bs : List Byte} (h : symbolsValue bs = g.toNat)
    (b : Byte) : symbolsValue (bs ++ [b]) = (g ++ val b).toNat := by
  rw [foldl_val_append, toNat_append_eq_add, h, show 2 ^ 6 = 64 from rfl]

theorem symbolsValue_singleton (b : Byte) : symbolsValue [b] = (val b).toNat := by
  simp [symbolsValue]

/-- `unpack` cuts the group's bit string at the width. -/
theorem unpack_of_bits {c : CodecWidth} {bs : List Byte} {g : BitVec (c.bits + c.xbits)}
    (h : symbolsValue bs = g.toNat) :
    unpack c bs = ((g.extractLsb' 0 c.bits).setWidth 32, (g.extractLsb' c.bits c.xbits).setWidth 4) := by
  have hextra : g.toNat / 2 ^ c.bits < 2 ^ c.xbits := Nat.div_lt_of_lt_mul (Nat.pow_add 2 .. ▸ g.isLt)
  rw [unpack, h]
  ext1
  · rw [← BitVec.ofNat_toNat 32, BitVec.extractLsb'_toNat, Nat.shiftRight_zero]
  · rw [← BitVec.ofNat_toNat 4, BitVec.extractLsb'_toNat, Nat.shiftRight_eq_div_pow, Nat.mod_eq_of_lt hextra]

/-! ## The encode commands

One lemma per ending of the common encode step (R125); a command's result is these at its width. -/

section encode

variable {c : CodecWidth} {x4 : BitVec 4} {imm : BitVec 32} {s : State}

theorem exec_encCommand_of_illegal (h : ¬ (imm.toNat < 2 ^ c.bits ∧ x4.toNat < 2 ^ c.xbits)) :
    exec (encCommand c x4 imm) s = .next (s.raise .operand) := by
  obtain ⟨-, henc⟩ | ⟨hfit, -⟩ | ⟨hfit, -⟩ := encodeStep_cases c x4 imm s
  · rw [exec_encCommand, henc]
  · exact absurd hfit h
  · exact absurd hfit h

theorem exec_encCommand_of_full (hv : imm.toNat < 2 ^ c.bits) (hx : x4.toNat < 2 ^ c.xbits)
    (hfull : s.params.bufcap.toNat < s.pos.toNat + c.nsym) :
    exec (encCommand c x4 imm) s = .next (s.raise .range) := by
  obtain ⟨hfit, -⟩ | ⟨-, -, henc⟩ | ⟨-, hroom, -⟩ := encodeStep_cases c x4 imm s
  · exact absurd ⟨hv, hx⟩ hfit
  · rw [exec_encCommand, henc]
  · exact absurd (State.roomFor_iff.1 hroom) (by omega)

theorem exec_encCommand_stored (hv : imm.toNat < 2 ^ c.bits) (hx : x4.toNat < 2 ^ c.xbits)
    (hroom : s.pos.toNat + c.nsym ≤ s.params.bufcap.toNat) (hwf : s.buf.wf = true) :
    ∃ t, exec (encCommand c x4 imm) s = .next t ∧ StoredAtCursor s t (pack c imm x4) := by
  obtain ⟨hfit, -⟩ | ⟨-, hfull, -⟩ | ⟨-, hroom, henc⟩ := encodeStep_cases c x4 imm s
  · exact absurd ⟨hv, hx⟩ hfit
  · omega
  · exact ⟨_, (exec_encCommand c x4 imm s).trans (congrArg _ henc),
      State.putAtCursor_stored hwf ((length_pack c imm x4).symm ▸ hroom)⟩

end encode

/-- Without extra bits, the operand `X4` is legal exactly when it is 0 (R96): the three endings of such a width. -/
theorem exec_encCommand_without_extra_bits {c : CodecWidth} (hc : c.xbits = 0) (x4 : BitVec 4) (imm : BitVec 32)
    (s : State) :
    (2 ^ c.bits ≤ imm.toNat ∨ x4 ≠ 0#4 → exec (encCommand c x4 imm) s = .next (s.raise .operand)) ∧
    (imm.toNat < 2 ^ c.bits → x4 = 0#4 → s.params.bufcap.toNat < s.pos.toNat + c.nsym →
      exec (encCommand c x4 imm) s = .next (s.raise .range)) ∧
    (imm.toNat < 2 ^ c.bits → x4 = 0#4 → s.pos.toNat + c.nsym ≤ s.params.bufcap.toNat → s.buf.wf = true →
      ∃ t, exec (encCommand c x4 imm) s = .next t ∧ StoredAtCursor s t (pack c imm 0#4)) := by
  have hlegal : x4.toNat < 2 ^ c.xbits ↔ x4 = 0#4 := by
    rw [hc, ← BitVec.toNat_inj]
    exact Nat.lt_one_iff
  refine ⟨fun h => ?_, fun hv hx hfull => ?_, fun hv hx hroom hwf => ?_⟩
  · exact exec_encCommand_of_illegal fun ⟨hv, hx⟩ => h.elim (Nat.not_le_of_lt hv) (absurd (hlegal.1 hx))
  · exact exec_encCommand_of_full hv (hlegal.2 hx) hfull
  · subst hx
    exact exec_encCommand_stored hv (hlegal.2 rfl) hroom hwf

/-- Settles O28. -/
theorem enc6Result : Obligations.Enc6Result :=
  fun x4 imm s => ⟨rfl, pack_w6 imm ▸ exec_encCommand_without_extra_bits (c := .w6) rfl x4 imm s⟩

/-- Settles O29: four extra bits fit in any `X4`. -/
theorem enc8Result : Obligations.Enc8Result := by
  refine fun x4 imm s => ⟨rfl, fun h => ?_, fun hv hfull => ?_, fun hv hroom hwf => ?_⟩
  · exact exec_encCommand_of_illegal (c := .w8) fun ⟨hv, _⟩ => Nat.not_le_of_lt hv h
  · exact exec_encCommand_of_full (c := .w8) hv x4.isLt hfull
  · exact pack_w8 hv x4 ▸ exec_encCommand_stored (c := .w8) hv x4.isLt hroom hwf

/-- Settles O30. -/
theorem enc12Result : Obligations.Enc12Result :=
  fun x4 imm s => ⟨rfl, pack_w12 imm ▸ exec_encCommand_without_extra_bits (c := .w12) rfl x4 imm s⟩

/-- Settles O31: two extra bits fit, so `X4` is legal below 4. -/
theorem enc16Result : Obligations.Enc16Result := by
  refine fun x4 imm s => ⟨rfl, fun h => ?_, fun hv hx hfull => ?_, fun hv hx hroom hwf => ?_⟩
  · exact exec_encCommand_of_illegal (c := .w16) fun ⟨hv, hx⟩ =>
      h.elim (Nat.not_le_of_lt hv) (Nat.not_le_of_lt hx)
  · exact exec_encCommand_of_full (c := .w16) hv hx hfull
  · exact pack_w16 hv hx ▸ exec_encCommand_stored (c := .w16) hv hx hroom hwf

/-- Settles O32: every value and every `X4` fit. -/
theorem enc32Result : Obligations.Enc32Result := by
  refine fun x4 imm s => ⟨rfl, fun hfull => ?_, fun hroom hwf => ?_⟩
  · exact exec_encCommand_of_full (c := .w32) imm.isLt x4.isLt hfull
  · exact pack_w32 imm x4 ▸ exec_encCommand_stored (c := .w32) imm.isLt x4.isLt hroom hwf

/-! ## The decode commands

The same for the two endings of the common decode step (R131). -/

section decode

variable {c : CodecWidth} {s : State}

theorem exec_decCommand_of_short (h : s.len.toNat < s.pos.toNat + c.nsym) :
    exec (decCommand c) s = .next (s.raise .range) := by
  obtain ⟨-, hdec⟩ | ⟨hle, -⟩ := decodeStep_cases c s
  · rw [exec_decCommand, hdec]
  · omega

theorem exec_decCommand_of_holds (h : s.pos.toNat + c.nsym ≤ s.len.toNat) {v : BitVec 32} {x : BitVec 4}
    (hvx : unpack c (s.buf.readBytes s.pos.toNat c.nsym) = (v, x)) :
    exec (decCommand c) s =
      .next { s with a := v, x := x, pos := BitVec.ofNat 16 (s.pos.toNat + c.nsym), err := 0#4 } := by
  obtain ⟨hlt, -⟩ | ⟨-, hdec⟩ := decodeStep_cases c s
  · omega
  · rw [exec_decCommand, hdec, hvx, BitVec.ofNat_add, BitVec.ofNat_toNat, BitVec.setWidth_eq]

/-- A decode of valid bytes whose values make the bit string `g`. -/
theorem exec_decCommand_of_bits (h : s.pos.toNat + c.nsym ≤ s.len.toNat) {g : BitVec (c.bits + c.xbits)}
    (hg : symbolsValue (s.buf.readBytes s.pos.toNat c.nsym) = g.toNat) {v : BitVec 32} {x : BitVec 4}
    (hv : (g.extractLsb' 0 c.bits).setWidth 32 = v) (hx : (g.extractLsb' c.bits c.xbits).setWidth 4 = x) :
    exec (decCommand c) s =
      .next { s with a := v, x := x, pos := BitVec.ofNat 16 (s.pos.toNat + c.nsym), err := 0#4 } :=
  exec_decCommand_of_holds h ((unpack_of_bits hg).trans (Prod.ext hv hx))

end decode

/-- A width without extra bits clears `X`. -/
theorem setWidth_extractLsb'_len_zero {n : Nat} (g : BitVec n) (k : Nat) : (g.extractLsb' k 0).setWidth 4 = 0#4 := by
  rw [BitVec.eq_nil (g.extractLsb' k 0)]
  rfl

/-- Settles O33. -/
theorem dec6Result : Obligations.Dec6Result := by
  refine ⟨rfl, fun s => ⟨fun h => exec_decCommand_of_short (c := .w6) (Nat.lt_succ_of_le h), fun h => ?_⟩⟩
  exact exec_decCommand_of_bits (c := .w6) h (symbolsValue_singleton _) (congrArg _ BitVec.extractLsb'_eq_self)
    (setWidth_extractLsb'_len_zero ..)

/-- The bit string that a decode of two symbols reads. -/
theorem symbolsValue_readBytes_two (m : Memory) (i : Nat) :
    symbolsValue (m.readBytes i 2) = (val (m.read i) ++ val (m.read (i + 1))).toNat :=
  symbolsValue_append_singleton (symbolsValue_singleton _) _

/-- Settles O34. -/
theorem dec8Result : Obligations.Dec8Result := by
  refine ⟨rfl, fun s => ⟨exec_decCommand_of_short (c := .w8), fun h g hg => ?_⟩⟩
  exact exec_decCommand_of_bits (c := .w8) h (hg ▸ symbolsValue_readBytes_two ..) rfl (BitVec.setWidth_eq _)

/-- Settles O35. -/
theorem dec12Result : Obligations.Dec12Result := by
  refine ⟨rfl, fun s => ⟨exec_decCommand_of_short (c := .w12), fun h g hg => ?_⟩⟩
  exact exec_decCommand_of_bits (c := .w12) h (hg ▸ symbolsValue_readBytes_two ..) rfl
    (setWidth_extractLsb'_len_zero ..)

/-- The bit string that a decode of three symbols reads. -/
theorem symbolsValue_readBytes_three (m : Memory) (i : Nat) :
    symbolsValue (m.readBytes i 3) = (val (m.read i) ++ val (m.read (i + 1)) ++ val (m.read (i + 2))).toNat :=
  symbolsValue_append_singleton (symbolsValue_readBytes_two m i) _

/-- Settles O36. -/
theorem dec16Result : Obligations.Dec16Result := by
  refine ⟨rfl, fun s => ⟨exec_decCommand_of_short (c := .w16), fun h g hg => ?_⟩⟩
  exact exec_decCommand_of_bits (c := .w16) h (hg ▸ symbolsValue_readBytes_three ..) rfl rfl

/-- The bit string that a decode of six symbols reads. -/
theorem symbolsValue_readBytes_six (m : Memory) (i : Nat) :
    symbolsValue (m.readBytes i 6) = (val (m.read i) ++ val (m.read (i + 1)) ++ val (m.read (i + 2)) ++
      val (m.read (i + 3)) ++ val (m.read (i + 4)) ++ val (m.read (i + 5))).toNat :=
  symbolsValue_append_singleton (symbolsValue_append_singleton
    (symbolsValue_append_singleton (symbolsValue_readBytes_three m i) _) _) _

/-- Settles O37. -/
theorem dec32Result : Obligations.Dec32Result := by
  refine ⟨rfl, fun s => ⟨exec_decCommand_of_short (c := .w32), fun h g hg => ?_⟩⟩
  exact exec_decCommand_of_bits (c := .w32) h (hg ▸ symbolsValue_readBytes_six ..) (BitVec.setWidth_eq _)
    (BitVec.setWidth_eq _)

/-! ## Encode, go back, decode -/

theorem execAll_cons {i : Instr} {is : List Instr} {s t : State} (h : exec i s = .next t) :
    execAll (i :: is) s = execAll is t := by
  rw [execAll, h]

/-- `SETPOS` to a cursor at or below `LEN` moves the cursor (46_buffer_table.md R211). -/
theorem exec_setpos_of_le {p : BitVec 16} {s : State} (h : p.toNat ≤ s.len.toNat) :
    exec (.setpos 0#4 (p.setWidth 32)) s = .next { s with pos := p, err := 0#4 } := by
  have hhigh : (p.setWidth 32).extractLsb' 16 16 = 0#16 := by
    apply BitVec.eq_of_toNat_eq
    rw [BitVec.extractLsb'_toNat, BitVec.toNat_setWidth_of_le (by decide), Nat.shiftRight_eq_div_pow,
      Nat.div_eq_of_lt p.isLt]
    rfl
  have hlow : (p.setWidth 32).extractLsb' 0 16 = p := by
    rw [BitVec.extractLsb'_setWidth_of_le (by decide), BitVec.extractLsb'_eq_self]
  rw [exec, execSetpos, hhigh, hlow, if_neg (by simp), if_neg (BitVec.not_lt.2 h)]
  rfl

/-- Settles O39: the decode reads the group that the encode stored, and `unpack` undoes `pack`. -/
theorem encodeThenDecodeGivesTheValueBack : Obligations.EncodeThenDecodeGivesTheValueBack := by
  intro c x4 imm s hv hx hroom hwf
  obtain ⟨t, henc, ht⟩ := exec_encCommand_stored hv hx hroom hwf
  have hlen : s.pos.toNat + c.nsym ≤ t.len.toNat := by
    rw [ht.len, length_pack]
    exact le_max_right ..
  have hset := exec_setpos_of_le (s := t) (p := s.pos) (by omega)
  have hread : t.buf.readBytes s.pos.toNat c.nsym = pack c imm x4 := length_pack c imm x4 ▸ ht.stored
  have hdec := exec_decCommand_of_holds (s := { t with pos := s.pos, err := 0#4 }) hlen
    ((congrArg _ hread).trans (unpack_pack hv hx))
  refine ⟨_, (execAll_cons henc).trans ((execAll_cons hset).trans (execAll_cons hdec)), rfl, rfl, ?_, rfl, ?_⟩
  · exact Nat.mod_eq_of_lt (hroom.trans_lt s.params.bufcap.isLt)
  · rw [ht.rest]

end Sys2Proof.Machine
end

section
/-! PROOF. The checksum (42_checksum.md): the sum over a range of the buffer, the endings of its three commands, and what
it detects. -/

namespace Sys2Proof.Machine

/-! ## The checksum as a sum (R140) -/

theorem sum_readBytes (m : Memory) (i n : Nat) :
    ((m.readBytes i n).map BitVec.toNat).sum = ∑ j ∈ Finset.Ico i (i + n), (m.read j).toNat := by
  induction n generalizing i with
  | zero => simp [Memory.readBytes]
  | succ n ih =>
    rw [Memory.readBytes, List.map_cons, List.sum_cons, ih, Nat.add_right_comm]
    exact (Finset.sum_eq_sum_Ico_succ_bot (Nat.lt_add_of_pos_right n.succ_pos) fun j => (m.read j).toNat).symm

/-- The checksum of a range of the buffer, as the rules of the three commands write it (R141 to R143). -/
theorem cksum_rangeBytes {lo hi : BitVec 16} (h : lo.toNat ≤ hi.toNat) (s : State) :
    cksum (s.rangeBytes lo hi) = BitVec.ofNat 6 (∑ j ∈ Finset.Ico lo.toNat hi.toNat, (s.buf.read j).toNat) := by
  rw [cksum, State.rangeBytes, sum_readBytes, Nat.add_sub_cancel' h]

/-- Two lists have the same checksum exactly when 64 divides the difference of their sums. -/
theorem cksum_eq_iff {l l' : List Byte} :
    cksum l = cksum l' ↔ (64 : Int) ∣ ((l'.map BitVec.toNat).sum : Int) - ((l.map BitVec.toNat).sum : Int) := by
  rw [cksum, cksum, ← BitVec.toNat_inj, BitVec.toNat_ofNat, BitVec.toNat_ofNat]
  exact Nat.modEq_iff_dvd

/-- Settles O46: the bytes around the changed one cancel, and a sum does not see an order. -/
theorem whatTheChecksumDetects : Obligations.WhatTheChecksumDetects := by
  refine ⟨fun l r b b' => ?_, fun l l' h => ?_⟩
  · have hdiff : (((l ++ b' :: r).map BitVec.toNat).sum : Int) - ((l ++ b :: r).map BitVec.toNat).sum =
        b'.toNat - b.toNat := by
      simp only [List.map_append, List.map_cons, List.sum_append, List.sum_cons, Nat.cast_add]
      ring
    rw [cksum_eq_iff, hdiff]
  · rw [cksum, cksum, (h.map BitVec.toNat).sum_eq]

/-! ## The endings of the commands -/

/-- Settles O42. -/
theorem cksumResult : Obligations.CksumResult := by
  refine fun lo hi s => ⟨rfl, fun hbad => ?_, fun hle hlen => ?_⟩
  · have hinvalid : s.rangeValid lo hi = false := Bool.eq_false_iff.2 (mt State.rangeValid_iff.1 hbad)
    rw [exec, execCksum, hinvalid]
    rfl
  · rw [exec, execCksum, State.rangeValid_iff.2 ⟨hle, hlen⟩, ← cksum_rangeBytes hle s]
    rfl

section endings

variable {lo hi : BitVec 16} {s : State}

/-- `CKAPP` with room puts the checksum in `CK` and stores its symbol (R142). -/
theorem exec_ckapp_stored (hle : lo.toNat ≤ s.pos.toNat) (hroom : s.pos.toNat < s.params.bufcap.toNat)
    (hwf : s.buf.wf = true) :
    ∃ t, exec (.ckapp lo 0#16) s = .next t ∧
      StoredAtCursor { s with ck := cksum (s.rangeBytes lo s.pos) } t [sym (cksum (s.rangeBytes lo s.pos))] := by
  refine ⟨_, ?_, State.putAtCursor_stored hwf (State.roomFor_iff.2 hroom)⟩
  rw [exec, execCkapp, if_neg (not_not.2 rfl), if_neg (by omega)]

/-- `CKVFY` over valid bytes writes `CK` on both outcomes of the comparison (R143). -/
theorem exec_ckvfy_of_valid (hle : lo.toNat ≤ hi.toNat) (hlt : hi.toNat < s.len.toNat) :
    exec (.ckvfy lo hi) s =
      .next { s with
        ck := cksum (s.rangeBytes lo hi)
        err := if s.buf.read hi.toNat = sym (cksum (s.rangeBytes lo hi)) then 0#4 else 2#4 } := by
  rw [exec, execCkvfy, if_neg (by omega)]
  by_cases hsym : s.buf.read hi.toNat = sym (cksum (s.rangeBytes lo hi))
  · rw [if_neg (not_not.2 hsym.symm), if_pos hsym]
    rfl
  · rw [if_pos (Ne.symm hsym), if_neg hsym]
    rfl

end endings

/-- Settles O43. -/
theorem ckappResult : Obligations.CkappResult := by
  refine fun lo e s => ⟨rfl, fun hop => ?_, fun hzero hbad => ?_, fun hzero hle hroom hwf c hc => ?_⟩
  · rw [exec, execCkapp, if_pos hop]
    rfl
  · rw [exec, execCkapp, if_neg (not_not.2 hzero), if_pos hbad]
    rfl
  · rw [hzero, hc, ← cksum_rangeBytes hle s]
    exact exec_ckapp_stored hle hroom hwf

/-- Settles O44. -/
theorem ckvfyResult : Obligations.CkvfyResult := by
  refine fun lo hi s => ⟨rfl, fun hbad => ?_, fun hle hlt c hc => ?_⟩
  · rw [exec, execCkvfy, if_pos (by omega)]
    rfl
  · rw [hc, ← cksum_rangeBytes hle s]
    exact exec_ckvfy_of_valid hle hlt

/-- Settles O45: the append leaves the summed bytes as they are, so `CKVFY` sums to the symbol that it then reads. -/
theorem appendedChecksumVerifies : Obligations.AppendedChecksumVerifies := by
  intro lo s hle hroom hwf
  obtain ⟨t, happ, ht⟩ := exec_ckapp_stored hle hroom hwf
  have hlen : s.pos.toNat < t.len.toNat := by
    rw [ht.len]
    exact lt_max_of_lt_right (Nat.lt_succ_self _)
  have hsum : t.rangeBytes lo s.pos = s.rangeBytes lo s.pos :=
    Memory.readBytes_congr fun k hk => ht.other _ (.inl (by dsimp only; omega))
  have hsymbol : t.buf.read s.pos.toNat = sym (cksum (t.rangeBytes lo s.pos)) :=
    (List.cons.inj ht.stored).1.trans (by rw [hsum])
  refine ⟨t, _, happ, exec_ckvfy_of_valid hle hlen, if_pos hsymbol, ?_⟩
  rw [hsum, ht.rest]

end Sys2Proof.Machine
end

section
/-! PROOF. The frame assembler and parser (43_frame.md): what a buffer holds, the request frames that the assembler
builds, the response frames that the parser accepts, and a response that is loaded and parsed. -/

namespace Sys2Proof.Machine

/-! ## A list of bytes in the buffer -/

/-- The bytes of a list stand in a buffer from index `i` up. -/
def Memory.HoldsAt (m : Memory) (i : Nat) (bs : List Byte) : Prop := m.readBytes i bs.length = bs

theorem Memory.holdsAt_cons {m : Memory} {i : Nat} {b : Byte} {bs : List Byte} :
    m.HoldsAt i (b :: bs) ↔ m.read i = b ∧ m.HoldsAt (i + 1) bs :=
  List.cons_eq_cons

theorem Memory.holdsAt_append {m : Memory} {i : Nat} {bs cs : List Byte} :
    m.HoldsAt i (bs ++ cs) ↔ m.HoldsAt i bs ∧ m.HoldsAt (i + bs.length) cs := by
  rw [Memory.HoldsAt, List.length_append, Memory.readBytes_add]
  exact ⟨fun h => List.append_inj h (Memory.length_readBytes ..), fun ⟨hbs, hcs⟩ => congrArg₂ _ hbs hcs⟩

theorem Memory.holdsAt_writeBytes {m : Memory} (hwf : m.wf = true) (i : Nat) (bs : List Byte) :
    (m.writeBytes i bs).HoldsAt i bs :=
  Memory.readBytes_writeBytes hwf i bs

theorem Memory.HoldsAt.read_mem {m : Memory} {i j : Nat} {bs : List Byte} (h : m.HoldsAt i bs) (hlo : i ≤ j)
    (hhi : j < i + bs.length) : m.read j ∈ bs := by
  obtain ⟨k, rfl⟩ := Nat.exists_eq_add_of_le hlo
  have hk : k < (m.readBytes i bs.length).length := by
    rw [Memory.length_readBytes]
    omega
  have hmem := List.getElem_mem hk
  rwa [Memory.getElem_readBytes, h] at hmem

/-- Groups of one size stand at multiples of that size. -/
theorem Memory.HoldsAt.flatMap {α : Type} {f : α → List Byte} {k : Nat} (hk : ∀ a, (f a).length = k) {m : Memory} :
    ∀ {l : List α} {i : Nat}, m.HoldsAt i (l.flatMap f) → ∀ (j : Nat) (hj : j < l.length),
      m.HoldsAt (i + j * k) (f l[j])
  | a :: l, i, h, 0, _ => by
    rw [List.flatMap_cons, Memory.holdsAt_append] at h
    simpa using h.1
  | a :: l, i, h, j + 1, hj => by
    rw [List.flatMap_cons, Memory.holdsAt_append, hk] at h
    have hrest := Memory.HoldsAt.flatMap hk h.2 j (Nat.lt_of_succ_lt_succ hj)
    rwa [Nat.succ_mul, Nat.add_comm (j * k), ← Nat.add_assoc]

/-- A frame's checksum symbol agrees with the summed bytes as they stand in the buffer (42_checksum.md R144). -/
theorem Memory.HoldsAt.checksum {m : Memory} {i : Nat} {body : List Byte}
    (h : m.HoldsAt i (body ++ [sym (cksum body)])) :
    m.read (i + body.length) = sym (cksum (m.readBytes i body.length)) := by
  obtain ⟨hbody, hsym⟩ := Memory.holdsAt_append.1 h
  rw [(Memory.holdsAt_cons.1 hsym).1, hbody]

theorem length_frameBody (seq count : Six) (entries : List Byte) :
    (frameBody seq count entries).length = entries.length + 2 :=
  rfl

/-! ## The request frames (R69, R154) -/

/-- The request frame that an assemble command builds from the table of the state `s`. -/
def State.request (s : State) (op : FrameOp) (w : FrameWidth) (seq count : Six) : List Byte :=
  requestFrame op w seq count ((s.entries count).flatMap (requestEntry op w))

theorem getElem_entries (s : State) {count : Six} (e : Fin 64) (h : e.val < (s.entries count).length) :
    (s.entries count)[e.val] = s.tab[e] := by
  simp [State.entries]

theorem length_flatMap_requestEntry (op : FrameOp) (w : FrameWidth) (count : Six) (s : State) :
    ((s.entries count).flatMap (requestEntry op w)).length = count.toNat * requestEntrySize op w := by
  simp [List.length_flatMap, length_requestEntry, length_entries]

/-- The two symbols of an address (R150). -/
theorem pack_addr (addr : BitVec 12) :
    pack .w12 (addr.setWidth 32) 0#4 = [sym (addr.extractLsb' 6 6), sym (addr.extractLsb' 0 6)] := by
  rw [pack_w12, BitVec.extractLsb'_setWidth_of_le (by decide), BitVec.extractLsb'_setWidth_of_le (by decide)]

theorem isSymbol_of_mem_pack {c : CodecWidth} {v : BitVec 32} {x : BitVec 4} {b : Byte} (h : b ∈ pack c v x) :
    isSymbol b = true :=
  isSymbol_of_mem_symbols _ _ b h

theorem isSymbol_of_mem_requestEntry {op : FrameOp} {w : FrameWidth} {e : TabEntry} {b : Byte}
    (h : b ∈ requestEntry op w e) : isSymbol b = true := by
  cases op with
  | read => exact isSymbol_of_mem_pack h
  | write => exact (List.mem_append.1 h).elim isSymbol_of_mem_pack isSymbol_of_mem_pack

/-- Between the header and the terminator of a request stand symbols only. -/
theorem isSymbol_of_mem_summed {op : FrameOp} {w : FrameWidth} {seq count c : Six} {es : List TabEntry} {b : Byte}
    (h : b ∈ frameBody seq count (es.flatMap (requestEntry op w)) ++ [sym c]) : isSymbol b = true := by
  simp only [frameBody, List.cons_append, List.mem_cons, List.mem_append, List.mem_flatMap, List.not_mem_nil,
    or_false] at h
  obtain rfl | rfl | ⟨e, -, hb⟩ | rfl := h
  · exact isSymbol_sym _
  · exact isSymbol_sym _
  · exact isSymbol_of_mem_requestEntry hb
  · exact isSymbol_sym _

/-- The buffer `m` holds the request of `n` bytes that an assemble command builds in the state `s`: the fixed offsets of
20_memory.md R69, and the alphabet of 43_frame.md R157. -/
structure HoldsRequest (op : FrameOp) (w : FrameWidth) (seq count : Six) (s : State) (m : Memory) (n : Nat) : Prop where
  length : n = 7 + count.toNat * requestEntrySize op w
  header : m.readBytes 0 5 = [0x24#8, op.char, w.char, sym seq, sym count]
  entry : ∀ e : Fin 64, e.val < count.toNat →
    m.readBytes (5 + e.val * requestEntrySize op w) (requestEntrySize op w) = requestEntry op w s.tab[e]
  checksum : m.read (n - 2) = sym (BitVec.ofNat 6 (∑ j ∈ Finset.Ico 3 (n - 2), (m.read j).toNat))
  terminator : m.read (n - 1) = 0x3F#8
  alphabet : ∀ j, 3 ≤ j → j ≤ n - 2 → isSymbol (m.read j) = true

/-- The parts of a request in the buffer stand at their offsets. -/
theorem holdsRequest_of_holdsAt {op : FrameOp} {w : FrameWidth} {seq count : Six} {s : State} {m : Memory} {n : Nat}
    (hn : n = 7 + count.toNat * requestEntrySize op w) (h : m.HoldsAt 0 (s.request op w seq count)) :
    HoldsRequest op w seq count s m n := by
  have hbody : (frameBody seq count ((s.entries count).flatMap (requestEntry op w))).length = n - 5 := by
    rw [length_frameBody, length_flatMap_requestEntry, hn]
    omega
  rw [State.request, requestFrame, List.append_assoc, Memory.holdsAt_append, List.append_cons,
    Memory.holdsAt_append] at h
  obtain ⟨hmarks, hsummed, hend⟩ := h
  obtain ⟨hfixed, -⟩ := Memory.holdsAt_append.1 hsummed
  obtain ⟨hseq, hfixed⟩ := Memory.holdsAt_cons.1 hfixed
  obtain ⟨hcount, hentries⟩ := Memory.holdsAt_cons.1 hfixed
  refine ⟨hn, ?_, fun e he => ?_, ?_, ?_, fun j hlo hhi => isSymbol_of_mem_summed (hsummed.read_mem hlo ?_)⟩
  · rw [Memory.readBytes_add m 0 3 2]
    exact congrArg₂ _ hmarks (congrArg₂ _ hseq (congrArg₂ _ hcount rfl))
  · have hlt : e.val < (s.entries count).length := (length_entries s count).symm ▸ he
    have hentry := hentries.flatMap (length_requestEntry op w) e.val hlt
    rwa [Memory.HoldsAt, length_requestEntry, getElem_entries] at hentry
  · have hck := hsummed.checksum
    rw [hbody, cksum, sum_readBytes] at hck
    rw [show n - 2 = 3 + (n - 5) by omega]
    exact hck
  · rw [List.length_append, hbody] at hend
    rw [show n - 1 = 3 + (n - 5 + 1) by omega]
    exact (Memory.holdsAt_cons.1 hend).1
  · rw [List.length_append, hbody]
    exact (by omega : j < 3 + (n - 5 + 1))

/-! ## The endings of the assemble commands -/

section assemble

variable {op : FrameOp} {wf : BitVec 2} {w : FrameWidth} {seq count : Six} {s : State}

/-- What the assemble step asks of the values in the table (R154). -/
theorem entries_fit_iff :
    (s.entries count).all (fun e => fits e.val w.codec.bits) = true ↔
      ∀ e : Fin 64, e.val < count.toNat → s.tab[e].val.toNat < 2 ^ w.codec.bits := by
  simp only [List.all_eq_true, fits, decide_eq_true_eq]
  constructor
  · intro h e he
    have hlt : e.val < (s.entries count).length := (length_entries s count).symm ▸ he
    exact getElem_entries s e hlt ▸ h _ (List.getElem_mem hlt)
  · intro h e he
    obtain ⟨j, hj, rfl⟩ := List.getElem_of_mem he
    have hlt : j < count.toNat := length_entries s count ▸ hj
    exact getElem_entries s ⟨j, by omega⟩ hj ▸ h ⟨j, by omega⟩ hlt

theorem exec_assembleCommand_of_bad_width (h : wf = 3#2) :
    exec (assembleCommand op wf seq count) s = .next (s.raise .operand) := by
  subst h
  rw [exec_assembleCommand]
  rfl

theorem exec_assembleCommand_of_unfit (hw : FrameWidth.ofField wf = some w)
    (h : ∃ e : Fin 64, e.val < count.toNat ∧ 2 ^ w.codec.bits ≤ s.tab[e].val.toNat) :
    exec (assembleCommand .write wf seq count) s = .next (s.raise .operand) := by
  obtain ⟨e, he, hbig⟩ := h
  have hunfit : ¬ (s.entries count).all (fun e => fits e.val w.codec.bits) = true := fun hall =>
    absurd (entries_fit_iff.1 hall e he) (Nat.not_lt_of_le hbig)
  simp only [exec_assembleCommand, assemble, hw]
  rw [if_pos ⟨trivial, hunfit⟩]

section fit

variable {n : Nat} (hw : FrameWidth.ofField wf = some w) (hn : n = 7 + count.toNat * requestEntrySize op w)
  (hfit : op = .write → ∀ e : Fin 64, e.val < count.toNat → s.tab[e].val.toNat < 2 ^ w.codec.bits)
include hw hn hfit

theorem exec_assembleCommand_of_fit :
    exec (assembleCommand op wf seq count) s =
      .next (if s.params.bufcap.toNat < n then s.raise .range
        else { s with buf := s.buf.writeBytes 0 (s.request op w seq count), len := BitVec.ofNat 16 n
                      pos := BitVec.ofNat 16 n, err := 0#4 }) := by
  have hlegal : ¬ (op = .write ∧ ¬ (s.entries count).all (fun e => fits e.val w.codec.bits) = true) :=
    fun ⟨hop, hunfit⟩ => hunfit (entries_fit_iff.2 (hfit hop))
  simp only [exec_assembleCommand, assemble, hw]
  rw [if_neg hlegal, hn]
  rfl

theorem exec_assembleCommand_of_full (hfull : s.params.bufcap.toNat < n) :
    exec (assembleCommand op wf seq count) s = .next (s.raise .range) := by
  rw [exec_assembleCommand_of_fit hw hn hfit, if_pos hfull]

/-- An assemble command that is not refused stores the request and keeps every byte behind it. -/
theorem exec_assembleCommand_built (hroom : n ≤ s.params.bufcap.toNat) (hwf : s.buf.wf = true) :
    ∃ t, exec (assembleCommand op wf seq count) s = .next t ∧
      t = { s with buf := t.buf, len := BitVec.ofNat 16 n, pos := BitVec.ofNat 16 n, err := 0#4 } ∧
      HoldsRequest op w seq count s t.buf n ∧ ∀ j, n ≤ j → t.buf.read j = s.buf.read j := by
  have hex := exec_assembleCommand_of_fit (seq := seq) hw hn hfit
  rw [if_neg (Nat.not_lt_of_le hroom)] at hex
  refine ⟨_, hex, rfl, holdsRequest_of_holdsAt hn (Memory.holdsAt_writeBytes hwf 0 _), fun j hj => ?_⟩
  rw [Memory.read_writeBytes _ hwf, dif_neg]
  rw [State.request, length_requestFrame, ← hn]
  omega

end fit

/-- An assemble step that ends with outcome code 0 has stored a request, because both refusals leave another code. -/
theorem holdsRequest_of_assemble (hwf : s.buf.wf = true) (herr : (assemble op wf seq count s).err = 0#4) :
    ∃ w, HoldsRequest op w seq count s (assemble op wf seq count s).buf (assemble op wf seq count s).len.toNat := by
  obtain hbad | hbad | ⟨w, -, hroom, hbuilt⟩ := assemble_cases op wf seq count s
  · rw [hbad, State.raise_err] at herr
    exact absurd herr (by decide)
  · rw [hbad, State.raise_err] at herr
    exact absurd herr (by decide)
  · have hlen : (BitVec.ofNat 16 (7 + count.toNat * requestEntrySize op w)).toNat =
        7 + count.toNat * requestEntrySize op w := Nat.mod_eq_of_lt (hroom.trans_lt s.params.bufcap.isLt)
    rw [hbuilt]
    dsimp only
    rw [hlen]
    exact ⟨w, holdsRequest_of_holdsAt rfl (Memory.holdsAt_writeBytes hwf 0 _)⟩

/-- `CKVFY 3, n−2` passes on a request of `n` bytes. -/
theorem exec_ckvfy_of_holdsRequest {t : State} (h : HoldsRequest op w seq count s t.buf t.len.toNat) :
    ∃ u, exec (.ckvfy 3#16 (t.len - 2#16)) t = .next u ∧ u.err = 0#4 := by
  have hlen : 7 ≤ t.len.toNat := h.length ▸ Nat.le_add_right ..
  have hsub : (t.len - 2#16).toNat = t.len.toNat - 2 :=
    BitVec.toNat_sub_of_le (BitVec.le_def.2 (le_trans (by decide) hlen))
  have hle : (3#16).toNat ≤ (t.len - 2#16).toNat := by
    change 3 ≤ _
    omega
  refine ⟨_, exec_ckvfy_of_valid hle (by omega), if_pos ?_⟩
  rw [cksum_rangeBytes hle, hsub]
  exact h.checksum

end assemble

theorem FrameWidth.bits_codec (w : FrameWidth) : w.codec.bits = 8 * w.bytes := by
  cases w <;> rfl

/-- Settles O47: no value is used, so only the width and the capacity can refuse. -/
theorem asmrdResult : Obligations.AsmrdResult := by
  refine fun w seq count s => ⟨rfl, exec_assembleCommand_of_bad_width (op := .read), fun fw n hw hn => ?_⟩
  rw [Nat.mul_comm] at hn
  refine ⟨exec_assembleCommand_of_full (op := .read) hw hn nofun, fun hroom hwf => ?_⟩
  obtain ⟨t, hex, hrest, hreq, hkept⟩ := exec_assembleCommand_built (op := .read) (seq := seq) hw hn nofun hroom hwf
  refine ⟨t, hex, hrest, hreq.header, fun e he => ?_, hreq.checksum, hreq.terminator, hkept⟩
  rw [Nat.mul_comm, ← pack_addr]
  exact hreq.entry e he

/-- Settles O48: every entry is the address's two symbols and the value's group. -/
theorem asmwrResult : Obligations.AsmwrResult := by
  refine fun w seq count s => ⟨rfl, exec_assembleCommand_of_bad_width (op := .write), fun fw k n hw hk hn => ?_⟩
  subst hk
  rw [← FrameWidth.bits_codec]
  refine ⟨exec_assembleCommand_of_unfit hw, fun hfit => ?_⟩
  refine ⟨exec_assembleCommand_of_full (op := .write) hw hn fun _ => hfit, fun hroom hwf => ?_⟩
  obtain ⟨t, hex, hrest, hreq, hkept⟩ :=
    exec_assembleCommand_built (op := .write) (seq := seq) hw hn (fun _ => hfit) hroom hwf
  refine ⟨t, hex, hrest, hreq.header, fun e he => ?_, hreq.checksum, hreq.terminator, hkept⟩
  rw [Nat.mul_comm, ← pack_addr]
  exact hreq.entry e he

/-- Settles O49: an outcome code of 0 shuts out the two refusals, and a stored request has the four properties. -/
theorem assembledFramesVerify : Obligations.AssembledFramesVerify := by
  intro i w seq count s t hi hwf hex herr
  obtain ⟨op, rfl⟩ : ∃ op, i = assembleCommand op w seq count := hi.elim (⟨.read, ·⟩) (⟨.write, ·⟩)
  obtain rfl := Host.Outcome.next.inj ((exec_assembleCommand ..).symm.trans hex)
  obtain ⟨fw, hreq⟩ := holdsRequest_of_assemble hwf herr
  exact ⟨exec_ckvfy_of_holdsRequest hreq, (List.cons.inj hreq.header).1, hreq.terminator, hreq.alphabet⟩

/-! ## The response frames (R70, R160)

`HoldsResponse` says when a parse accepts the buffer (`parseChecks_ok_iff`). -/

/-- A parse of a well-formed response stores its groups and sets the parse registers. -/
theorem exec_parseCommand_of_holdsResponse {op : FrameOp} {s : State} {w : FrameWidth} {seq count : Six}
    (h : HoldsResponse op s w seq count) :
    exec (parseCommand op) s =
      .next { s with
        tab := storeResponses op ⟨w, seq, count⟩ s.buf s.tab
        fop := op.char
        fwidth := BitVec.ofNat 3 w.bytes
        fseq := seq
        fcount := count
        err := 0#4 } := by
  have hok := (parseChecks_ok_iff op s ⟨w, seq, count⟩).2 h
  rw [exec_parseCommand, parse, hok]
  rfl

/-- Settles O51: the answered entries get value and return code. -/
theorem parserdResult : Obligations.ParserdResult :=
  fun s w seq count h => ⟨_, exec_parseCommand_of_holdsResponse h, rfl,
    getElem_storeResponses .read ⟨w, seq, count⟩ s.buf s.tab⟩

/-- Settles O52: the answered entries get the return code only. -/
theorem parsewrResult : Obligations.ParsewrResult :=
  fun s w seq count h => ⟨_, exec_parseCommand_of_holdsResponse h, rfl,
    getElem_storeResponses .write ⟨w, seq, count⟩ s.buf s.tab⟩

/-! ## A response loaded and parsed (30_encoding.md R105) -/

theorem execAll_append {is js : List Instr} {s t : State} (h : execAll is s = .next t) :
    execAll (is ++ js) s = execAll js t := by
  induction is generalizing s with
  | nil => exact congrArg _ (Host.Outcome.next.inj h)
  | cons i is ih =>
    obtain ⟨u, -, hex⟩ := exec_effect i s
    rw [execAll_cons (hex s (.refl s))] at h
    rw [List.cons_append, execAll_cons (hex s (.refl s))]
    exact ih h

/-- Two stores in a row are one store of both lists. -/
theorem StoredAtCursor.append {s t u : State} {bs cs : List Byte} (ht : StoredAtCursor s t bs)
    (hu : StoredAtCursor t u cs) : StoredAtCursor s u (bs ++ cs) where
  rest := hu.rest.trans (by rw [ht.rest])
  pos := by rw [hu.pos, ht.pos, List.length_append, Nat.add_assoc]
  len := by
    rw [hu.len, ht.len, ht.pos, List.length_append]
    omega
  stored := by
    refine Memory.holdsAt_append.2 ⟨?_, ht.pos ▸ hu.stored⟩
    exact (Memory.readBytes_congr fun k hk => hu.other _ (.inl (by rw [ht.pos]; omega))).trans ht.stored
  other j hj := by
    rw [List.length_append] at hj
    have hpos := ht.pos
    rw [hu.other j (by omega), ht.other j (by omega)]

/-- `PUTB` of a byte with room (46_buffer_table.md R212). -/
theorem exec_putb_stored {s : State} (b : Byte) (hroom : s.pos.toNat < s.params.bufcap.toNat) (hwf : s.buf.wf = true) :
    ∃ t, exec (.putb 0#4 (b.setWidth 32)) s = .next t ∧ StoredAtCursor s t [b] ∧ t.buf.wf = true := by
  have hbyte : byteOperand 0#4 (b.setWidth 32) = true := by
    have hb : (b.setWidth 32).toNat = b.toNat := BitVec.toNat_setWidth_of_le (by decide)
    simp [byteOperand, fits, hb, b.isLt]
  have hlow : (b.setWidth 32).extractLsb' 0 8 = b := by
    rw [BitVec.extractLsb'_setWidth_of_le (by decide), BitVec.extractLsb'_eq_self]
  have hone : s.roomFor 1 = true := State.roomFor_iff.2 hroom
  refine ⟨(s.putAtCursor [b]).done, ?_, State.putAtCursor_stored hwf hone, Memory.wf_writeBytes hwf⟩
  simp [exec, execPutb, hbyte, hlow, hone]

/-- `PUTB` of each byte of a text stores the text; an empty text leaves `STATUS.ERR`, so it is 0 before. -/
theorem execAll_putBytes {s : State} {text : List Byte} (hroom : s.pos.toNat + text.length ≤ s.params.bufcap.toNat)
    (hwf : s.buf.wf = true) (herr : s.err = 0#4) (hle : s.pos.toNat ≤ s.len.toNat) :
    ∃ t, execAll (putBytes text) s = .next t ∧ StoredAtCursor s t text := by
  induction text generalizing s with
  | nil => exact ⟨s, rfl, by rw [← herr], rfl, (max_eq_left hle).symm, rfl, fun _ _ => rfl⟩
  | cons b text ih =>
    rw [List.length_cons] at hroom
    obtain ⟨t, hex, ht, hwf'⟩ := exec_putb_stored b (by omega) hwf
    have hpos : t.pos.toNat = s.pos.toNat + 1 := ht.pos
    have hparams : t.params = s.params := by rw [ht.rest]
    have herr' : t.err = 0#4 := by rw [ht.rest]
    have hle' : t.pos.toNat ≤ t.len.toNat := by
      rw [ht.pos, ht.len]
      exact le_max_right ..
    obtain ⟨u, hexs, hu⟩ := ih (s := t) (by rw [hpos, hparams]; omega) hwf' herr' hle'
    exact ⟨u, (execAll_cons hex).trans hexs, ht.append hu⟩

/-- `LOADFRAME` of a text that fits leaves exactly the text in the buffer. -/
theorem execAll_loadFrame {s : State} {text : List Byte} (hroom : text.length ≤ s.params.bufcap.toNat)
    (hwf : s.buf.wf = true) :
    ∃ t, execAll (loadFrame text) s = .next t ∧ t.len.toNat = text.length ∧ t.buf.HoldsAt 0 text := by
  obtain ⟨t, hex, ht⟩ := execAll_putBytes (s := { s with len := 0#16, pos := 0#16, err := 0#4 }) (text := text)
    (by simpa using hroom) hwf rfl le_rfl
  refine ⟨t, (execAll_cons rfl).trans hex, ?_, ht.stored⟩
  rw [ht.len]
  simp

theorem length_flatMap_pack (c : CodecWidth) (es : List (BitVec 32 × BitVec 4)) :
    (es.flatMap fun e => pack c e.1 e.2).length = es.length * c.nsym := by
  simp [List.length_flatMap]

theorem length_responseFrame (op : FrameOp) (w : FrameWidth) (seq : Six) (es : List (BitVec 32 × BitVec 4)) :
    (responseFrame op w seq es).length = 7 + es.length * w.codec.nsym := by
  simp only [responseFrame, List.length_append, List.length_cons, List.length_nil, length_flatMap_pack]
  omega

/-- A count of at most 63 is expressed in its symbol. -/
theorem toNat_count {n : Nat} (h : n ≤ 63) : (BitVec.ofNat 6 n).toNat = n :=
  Nat.mod_eq_of_lt (Nat.lt_succ_of_le h)

/-- A parse accepts a buffer that holds a response frame and nothing else, and the groups stand in their places. -/
theorem holdsResponse_of_holdsAt {op : FrameOp} {w : FrameWidth} {seq : Six} {es : List (BitVec 32 × BitVec 4)}
    {s : State} (hes : es.length ≤ 63) (hlen : s.len.toNat = (responseFrame op w seq es).length)
    (h : s.buf.HoldsAt 0 (responseFrame op w seq es)) :
    HoldsResponse op s w seq (BitVec.ofNat 6 es.length) ∧
      s.buf.HoldsAt 6 (es.flatMap fun e => pack w.codec e.1 e.2) := by
  rw [length_responseFrame] at hlen
  have hsummed_len : s.len.toNat - 5 =
      (frameBody seq (BitVec.ofNat 6 es.length) (es.flatMap fun e => pack w.codec e.1 e.2)).length := by
    rw [length_frameBody, length_flatMap_pack, hlen]
    omega
  rw [responseFrame, List.append_assoc, Memory.holdsAt_append] at h
  obtain ⟨hmarks, hsummed⟩ := h
  obtain ⟨hfixed, -⟩ := Memory.holdsAt_append.1 hsummed
  simp only [Memory.holdsAt_cons] at hmarks hfixed
  obtain ⟨hstart, hop, hw, hmarker, -⟩ := hmarks
  obtain ⟨hseq, hcount, hgroups⟩ := hfixed
  refine ⟨⟨?_, hstart, hop, hw, hmarker, ?_, ?_, ?_⟩, hgroups⟩
  · rw [hlen, toNat_count hes]
  · exact (congrArg val hseq).trans (val_sym _)
  · exact (congrArg val hcount).trans (val_sym _)
  · rw [show s.len.toNat - 1 = 4 + (s.len.toNat - 5) by omega, hsummed_len]
    exact hsummed.checksum

theorem FrameWidth.nsym_codec_le (w : FrameWidth) : w.codec.nsym ≤ 6 := by
  cases w <;> decide

/-- Settles O53: the load leaves a response that the parse accepts, and `unpack` undoes `pack` in every group. -/
theorem responsesParseBack : Obligations.ResponsesParseBack := by
  intro op w seq es s hparams hwf hes hfit
  have hroom : (responseFrame op w seq es).length ≤ s.params.bufcap.toNat := by
    rw [length_responseFrame]
    calc 7 + es.length * w.codec.nsym ≤ 7 + 63 * 6 := Nat.add_le_add_left (Nat.mul_le_mul hes w.nsym_codec_le) 7
      _ ≤ 511 := by decide
      _ ≤ s.params.bufcap.toNat := of_decide_eq_true hparams
  obtain ⟨t, hload, hlen, hholds⟩ := execAll_loadFrame hroom hwf
  obtain ⟨hresp, hgroups⟩ := holdsResponse_of_holdsAt hes hlen hholds
  have hcount := toNat_count hes
  refine ⟨_, (execAll_append hload).trans (execAll_cons (exec_parseCommand_of_holdsResponse hresp)), rfl, rfl, ?_, rfl,
    hcount, fun e he => ?_⟩
  · cases w <;> rfl
  · have hgroup : responseEntry w t.buf e.val = es[e.val] := by
      obtain ⟨hv, hx⟩ := hfit _ (List.getElem_mem he)
      have hread := hgroups.flatMap (fun _ => length_pack ..) e.val he
      rw [Memory.HoldsAt, length_pack] at hread
      rw [responseEntry, hread, unpack_pack hv hx]
    dsimp only
    rw [getElem_storeResponses, if_pos (hcount.symm ▸ he), hgroup]
    cases op with
    | read => exact ⟨rfl, fun _ => rfl⟩
    | write => exact ⟨rfl, nofun⟩

end Sys2Proof.Machine
end

section
/-! PROOF. The CRC-32 unit (44_crc32.md): the register's shifts, the endings of the six commands, feeding a range in
parts, and the residue of a message with its own CRC. -/

namespace Sys2Proof.Machine

/-! ## The shifts of the register (R181) -/

section shifts

variable {poly : Word}

theorem crcShifts_eq_iterate (poly : Word) (n : Nat) : crcShifts poly n = (crcShift poly)^[n] := by
  induction n with
  | zero => rfl
  | succ n ih =>
    funext c
    rw [crcShifts, ih, Function.iterate_succ_apply]

theorem crcShifts_add (m n : Nat) (c : Word) : crcShifts poly (n + m) c = crcShifts poly n (crcShifts poly m c) := by
  simp only [crcShifts_eq_iterate, Function.iterate_add_apply]

/-- A value whose bit 0 is 0 does not decide whether the polynomial is XORed in. -/
theorem crcShift_xor (c : Word) {v : Word} (h : v.getLsbD 0 = false) :
    crcShift poly (c ^^^ v) = crcShift poly c ^^^ v >>> 1 := by
  have hbit : (c ^^^ v).getLsbD 0 = c.getLsbD 0 := by rw [BitVec.getLsbD_xor, h, Bool.xor_false]
  rw [crcShift, crcShift, hbit, BitVec.ushiftRight_xor_distrib]
  split
  · rw [BitVec.xor_assoc, BitVec.xor_assoc, BitVec.xor_comm poly]
  · rfl

/-- A value whose low `n` bits are 0 comes through `n` shifts unmixed. -/
theorem crcShifts_xor (n : Nat) (c : Word) {v : Word} (h : ∀ k < n, v.getLsbD k = false) :
    crcShifts poly n (c ^^^ v) = crcShifts poly n c ^^^ v >>> n := by
  induction n generalizing c v with
  | zero => simp [crcShifts]
  | succ n ih =>
    have hrest : ∀ k < n, (v >>> 1).getLsbD k = false := fun k hk => by
      rw [BitVec.getLsbD_ushiftRight]
      exact h _ (by omega)
    rw [crcShifts, crcShifts, crcShift_xor c (h 0 n.succ_pos), ih _ hrest, ← BitVec.shiftRight_add, Nat.add_comm 1]

/-- A word is its low byte and the bits above it. -/
theorem low_byte_xor_high_bits (w : Word) : (w.extractLsb' 0 8).setWidth 32 ^^^ w >>> 8 <<< 8 = w := by
  refine BitVec.eq_of_getLsbD_eq fun k hk => ?_
  by_cases hlow : k < 8
  · simp [hlow, hk]
  · simp [hlow, hk, Nat.add_sub_cancel' (Nat.le_of_not_lt hlow)]

/-- Eight shifts of a whole word feed its low byte and leave its other bytes to be fed. -/
theorem crcShifts_eight_xor (c w : Word) :
    crcShifts poly 8 (c ^^^ w) = crcStep poly c (w.extractLsb' 0 8) ^^^ w >>> 8 := by
  have hhigh : w >>> 8 <<< 8 >>> 8 = w >>> 8 := BitVec.eq_of_getLsbD_eq fun k _ => by
    simpa using BitVec.lt_of_getLsbD
  calc crcShifts poly 8 (c ^^^ w)
    _ = crcShifts poly 8 (c ^^^ (w.extractLsb' 0 8).setWidth 32 ^^^ w >>> 8 <<< 8) := by
      rw [BitVec.xor_assoc, low_byte_xor_high_bits]
    _ = crcStep poly c (w.extractLsb' 0 8) ^^^ w >>> 8 <<< 8 >>> 8 := crcShifts_xor 8 _ fun k hk => by simp [hk]
    _ = crcStep poly c (w.extractLsb' 0 8) ^^^ w >>> 8 := by rw [hhigh]

/-- Feeding the four bytes of a word, least significant first, is 32 shifts of the register XORed with the word. -/
theorem crcFeed_littleEndian (c w : Word) : crcFeed poly c (littleEndian w) = crcShifts poly 32 (c ^^^ w) := by
  have hbyte (k : Nat) : (w >>> k).extractLsb' 0 8 = w.extractLsb' k 8 :=
    BitVec.eq_of_getLsbD_eq fun i _ => by simp
  have hnone : w >>> 32 = 0#32 := BitVec.ushiftRight_eq_zero le_rfl
  have hfour : crcShifts poly 32 (c ^^^ w) =
      crcShifts poly 8 (crcShifts poly 8 (crcShifts poly 8 (crcShifts poly 8 (c ^^^ w)))) := by
    simp only [← crcShifts_add]
  simp only [hfour, crcShifts_eight_xor, ← BitVec.shiftRight_add, Nat.reduceAdd, hbyte, hnone, BitVec.xor_zero]
  rfl

end shifts

theorem crcFeed_append (poly c : Word) (bs cs : List Byte) :
    crcFeed poly c (bs ++ cs) = crcFeed poly (crcFeed poly c bs) cs :=
  List.foldl_append

/-! ## The endings of the commands -/

/-- Settles O54. -/
theorem crcinitCrcfinCrcvfyResults : Obligations.CrcinitCrcfinCrcvfyResults := by
  refine ⟨rfl, rfl, fun s => ⟨rfl, rfl, fun x4 imm => ⟨rfl, fun hx => ?_, fun hx => ?_⟩⟩⟩
  · rw [exec, execCrcvfy, if_pos hx]
    rfl
  · rw [exec, execCrcvfy, if_neg (not_not.2 hx)]
    by_cases heq : s.crcFinal = imm
    · rw [if_neg (not_not.2 heq), ← State.crcFinal, if_pos heq]
      rfl
    · rw [if_pos heq, ← State.crcFinal, if_neg heq]
      rfl

theorem byteOperand_iff {x4 : BitVec 4} {imm : BitVec 32} :
    byteOperand x4 imm = true ↔ x4 = 0#4 ∧ imm.toNat < 256 := by
  simp [byteOperand, fits]

section endings

variable {s : State}

/-- `CRCUPDB` of a legal operand feeds one byte (R184). -/
theorem exec_crcupdb_of_lt {imm : BitVec 32} (h : imm.toNat < 256) :
    exec (.crcupdb 0#4 imm) s =
      .next { s with crc := crcStep s.params.crcPoly s.crc (BitVec.ofNat 8 imm.toNat), err := 0#4 } := by
  rw [exec, execCrcupdb, byteOperand_iff.2 ⟨rfl, h⟩]
  rfl

/-- `CRCUPDW` feeds the four bytes of its operand, least significant first (R185). -/
theorem exec_crcupdw (imm : BitVec 32) :
    exec (.crcupdw 0#4 imm) s =
      .next { s with crc := crcFeed s.params.crcPoly s.crc (littleEndian imm), err := 0#4 } :=
  rfl

/-- `CRCUPDR` of a valid range feeds its bytes (R186). -/
theorem exec_crcupdr_of_valid {lo hi : BitVec 16} (hle : lo.toNat ≤ hi.toNat) (hlen : hi.toNat ≤ s.len.toNat) :
    exec (.crcupdr lo hi) s =
      .next { s with crc := crcFeed s.params.crcPoly s.crc (s.rangeBytes lo hi), err := 0#4 } := by
  rw [exec, execCrcupdr, State.rangeValid_iff.2 ⟨hle, hlen⟩]
  rfl

end endings

/-- The check values of R182 under the numbers of R180. -/
theorem crcFeed_check_values :
    crcFeed 0xEDB88320#32 0xFFFFFFFF#32 [0x31#8, 0x32#8, 0x33#8, 0x34#8, 0x35#8, 0x36#8, 0x37#8, 0x38#8, 0x39#8] ^^^
      0xFFFFFFFF#32 = 0xCBF43926#32 ∧
    crcFeed 0xEDB88320#32 0xFFFFFFFF#32 [0x61#8] ^^^ 0xFFFFFFFF#32 = 0xE8B7BE43#32 := by
  decide +kernel

/-- Settles O55: the shifts are an iteration, and the operand checks leave one ending each. -/
theorem crcupdbCrcupdwResults : Obligations.CrcupdbCrcupdwResults := by
  refine ⟨fun poly c b => congrFun (crcShifts_eq_iterate poly 8) _, fun p bs => rfl, fun p hpoly hinit hxor => ?_,
    fun x4 imm s => ⟨rfl, rfl, fun hbad => ?_, fun hx hlt => ?_, fun hx => ?_, fun hx p hp => ?_⟩⟩
  · obtain ⟨hdigits, hletter⟩ := crcFeed_check_values
    simp only [crc32, hpoly, hinit, hxor]
    exact ⟨hdigits, hletter, rfl⟩
  · have hillegal : byteOperand x4 imm = false :=
      Bool.eq_false_iff.2 fun h => by
        obtain ⟨hx, hlt⟩ := byteOperand_iff.1 h
        exact hbad.elim (absurd hx) (Nat.not_le_of_lt hlt)
    rw [exec, execCrcupdb, hillegal]
    rfl
  · subst hx
    exact exec_crcupdb_of_lt hlt
  · rw [exec, execCrcupdw, if_pos hx]
    rfl
  · subst hx hp
    exact exec_crcupdw imm

/-! ## A range of the buffer -/

/-- `CRCUPDB` of each byte of a list feeds the list; an empty list leaves `STATUS.ERR`. -/
theorem execAll_feedBytes (bs : List Byte) (s : State) :
    execAll (feedBytes bs) s =
      .next { s with crc := crcFeed s.params.crcPoly s.crc bs, err := if bs = [] then s.err else 0#4 } := by
  induction bs generalizing s with
  | nil => rfl
  | cons b bs ih =>
    have hb : (b.setWidth 32).toNat = b.toNat := BitVec.toNat_setWidth_of_le (by decide)
    have hexec := exec_crcupdb_of_lt (s := s) (imm := b.setWidth 32) (hb ▸ b.isLt)
    rw [hb, BitVec.ofNat_toNat, BitVec.setWidth_eq] at hexec
    refine (execAll_cons hexec).trans ((ih _).trans ?_)
    simp [crcFeed]

theorem rangeBytes_eq_nil_iff {lo hi : BitVec 16} (h : lo.toNat ≤ hi.toNat) (s : State) :
    s.rangeBytes lo hi = [] ↔ lo = hi := by
  rw [← List.length_eq_zero_iff, State.rangeBytes, Memory.length_readBytes, ← BitVec.toNat_inj]
  omega

/-- Settles O56. -/
theorem crcupdrResult : Obligations.CrcupdrResult := by
  refine fun lo hi s => ⟨rfl, fun hbad => ?_, fun hle hlen => ⟨_, exec_crcupdr_of_valid hle hlen, ?_, rfl, ?_⟩⟩
  · have hinvalid : s.rangeValid lo hi = false := Bool.eq_false_iff.2 (mt State.rangeValid_iff.1 hbad)
    rw [exec, execCrcupdr, hinvalid]
    rfl
  · rw [← State.rangeBytes, execAll_feedBytes]
    simp only [rangeBytes_eq_nil_iff hle]
  · intro hempty
    rw [(rangeBytes_eq_nil_iff hle s).2 hempty]
    rfl

/-- A range is its part below a split point and then its part from there. -/
theorem rangeBytes_append {lo mid hi : BitVec 16} (hlo : lo.toNat ≤ mid.toNat) (hhi : mid.toNat ≤ hi.toNat)
    (s : State) : s.rangeBytes lo hi = s.rangeBytes lo mid ++ s.rangeBytes mid hi := by
  have hn : hi.toNat - lo.toNat = (mid.toNat - lo.toNat) + (hi.toNat - mid.toNat) := by omega
  rw [State.rangeBytes, hn, Memory.readBytes_add, Nat.add_sub_cancel' hlo]
  rfl

/-- Settles O57: the second part is fed to the register that the first part leaves. -/
theorem crcOfASplitRange : Obligations.CrcOfASplitRange := by
  intro lo mid hi s hlo hhi hlen
  refine ⟨_, exec_crcupdr_of_valid (hlo.trans hhi) hlen, ?_⟩
  rw [rangeBytes_append hlo hhi, crcFeed_append]
  have hfirst := exec_crcupdr_of_valid hlo (hhi.trans hlen)
  exact (execAll_cons hfirst).trans (execAll_cons (exec_crcupdr_of_valid hhi hlen))

/-! ## The residue -/

/-- The residue of the default polynomial: what 32 shifts make of the final XOR. -/
theorem crcShifts_residue : crcShifts 0xEDB88320#32 32 0xFFFFFFFF#32 = 0xDEBB20E3#32 := by
  decide +kernel

/-- Settles O58: `CRC` XORed with the finalised `CRC` is the final XOR, whatever the message was. -/
theorem crcResidue : Obligations.CrcResidue := by
  intro s hpoly hxor
  have hcrc : crcFeed s.params.crcPoly s.crc (littleEndian s.crcFinal) = 0xDEBB20E3#32 := by
    rw [crcFeed_littleEndian, State.crcFinal, ← BitVec.xor_assoc, BitVec.xor_self, BitVec.zero_xor, hpoly, hxor,
      crcShifts_residue]
  refine ⟨_, _, rfl, exec_crcupdw _, hcrc, rfl, _, rfl, ?_⟩
  exact (congrArg₂ (· ^^^ ·) hcrc hxor).trans (by decide)

end Sys2Proof.Machine
end

section
/-! PROOF. The handshake sequences (45_handshake_sequences.md): commands that feed bytes to the CRC register, the key
expansion, and the rounds of a password. -/

namespace Sys2Proof.Machine

/-! ## A CRC stream from `CRCINIT` to `CRCFIN` -/

/-- From `s` the commands put the bytes through the CRC register and write nothing else but `STATUS.ERR`. -/
def Feeds (is : List Instr) (s : State) (bs : List Byte) : Prop :=
  ∃ err, execAll is s = .next { s with crc := crcFeed s.params.crcPoly s.crc bs, err := err }

theorem feeds_nil (s : State) : Feeds [] s [] := ⟨s.err, rfl⟩

theorem feeds_feedBytes (bs : List Byte) (s : State) : Feeds (feedBytes bs) s bs := ⟨_, execAll_feedBytes bs s⟩

theorem feeds_crcupdw (w : Word) (s : State) : Feeds [.crcupdw 0#4 w] s (littleEndian w) :=
  ⟨_, execAll_cons (exec_crcupdw w)⟩

theorem feeds_crcupdr {lo hi : BitVec 16} {s : State} (hle : lo.toNat ≤ hi.toNat) (hlen : hi.toNat ≤ s.len.toNat) :
    Feeds [.crcupdr lo hi] s (s.rangeBytes lo hi) :=
  ⟨_, execAll_cons (exec_crcupdr_of_valid hle hlen)⟩

theorem Feeds.append {is js : List Instr} {bs cs : List Byte} {s : State} (his : Feeds is s bs)
    (hjs : ∀ t, Feeds js t cs) : Feeds (is ++ js) s (bs ++ cs) := by
  obtain ⟨e, his⟩ := his
  obtain ⟨e', hjs⟩ := hjs { s with crc := crcFeed s.params.crcPoly s.crc bs, err := e }
  refine ⟨e', (execAll_append his).trans (hjs.trans ?_)⟩
  rw [crcFeed_append]

theorem feeds_replicate {is : List Instr} {bs : List Byte} (h : ∀ s, Feeds is s bs) (n : Nat) :
    ∀ s, Feeds (List.replicate n is).flatten s (List.replicate n bs).flatten := by
  induction n with
  | zero => exact feeds_nil
  | succ n ih => exact fun s => (h s).append ih

/-- `CRCINIT`, commands that feed the bytes, `CRCFIN`: the CRC-32 of the bytes is in `A` (44_crc32.md R182). -/
theorem execAll_crcStream {is : List Instr} {bs : List Byte} {s : State}
    (h : Feeds is { s with crc := s.params.crcInit, err := 0#4 } bs) :
    ∃ t, execAll (.crcinit :: is ++ [.crcfin]) s = .next t ∧ t.a = crc32 s.params bs := by
  obtain ⟨e, h⟩ := h
  exact ⟨_, (execAll_cons rfl).trans ((execAll_append h).trans (execAll_cons rfl)), rfl⟩

/-! ## The key expansion (R196 to R198) -/

/-- In groups of one size, element `i` of group `j` stands at `k * j + i`. -/
theorem getElem?_flatMap_of_length {α β : Type} {f : α → List β} {k i : Nat} (hk : ∀ a, (f a).length = k)
    (hi : i < k) : ∀ (l : List α) (j : Nat), (l.flatMap f)[k * j + i]? = l[j]?.bind fun a => (f a)[i]?
  | [], _ => by simp
  | a :: l, 0 => by
    rw [List.flatMap_cons, Nat.mul_zero, Nat.zero_add, List.getElem?_append_left (hk a ▸ hi)]
    rfl
  | a :: l, j + 1 => by
    have hskip : k * (j + 1) + i - (f a).length = k * j + i := by
      rw [hk, Nat.mul_succ]
      omega
    rw [List.flatMap_cons, List.getElem?_append_right (by rw [hk, Nat.mul_succ]; omega), hskip,
      getElem?_flatMap_of_length hk hi l j]
    rfl

section expansion

variable (order : NibOrder) (dir : RotDir) (challenge : Word) (key : Vector Byte 16)

theorem length_expandedKey : (expandedKey order dir challenge key).length = 128 := by
  simp [expandedKey, List.length_flatMap]

/-- Block `j` of the expansion is the key rotated by nibble `j` of the challenge. -/
theorem getElem?_expandedKey (j : Fin 8) {i : Nat} (hi : i < 16) :
    (expandedKey order dir challenge key)[16 * j.val + i]? =
      some (rotatedKeyByte dir key (challengeNibble order challenge j) i) := by
  rw [expandedKey, getElem?_flatMap_of_length (fun _ => by simp) hi, List.getElem?_range j.isLt]
  simp [hi]

end expansion

/-- A rotation that starts reading the key at `r` (R197 `start_at`). -/
theorem rotatedKeyByte_startAt (key : Vector Byte 16) (r i : Nat) :
    some (rotatedKeyByte .startAt key r i) = key[(i + r) % 16]? :=
  (Vector.getElem?_eq_getElem _).symm

/-- A rotation that starts writing the key at `r` (R197 `place_at`). -/
theorem rotatedKeyByte_placeAt (key : Vector Byte 16) (r : Nat) (i : Fin 16) :
    some (rotatedKeyByte .placeAt key r ((i.val + r) % 16)) = key[i.val]? := by
  have hback : ((i.val + r) % 16 + (16 - r % 16)) % 16 = i.val := by omega
  rw [Vector.getElem?_eq_getElem i.isLt]
  simp only [rotatedKeyByte, hback]

theorem execAll_keeps_params {is : List Instr} {s t : State} (h : execAll is s = .next t) : t.params = s.params := by
  induction is generalizing s with
  | nil => exact congrArg State.params (Host.Outcome.next.inj h).symm
  | cons i is ih =>
    obtain ⟨u, hu, hex⟩ := exec_effect i s
    rw [execAll_cons (hex s (.refl s))] at h
    exact (ih h).trans (hu.params_kept s)

/-- The CRC-32 of a text through the buffer (R198): the load leaves the text at `[0, n)`, and
`CRCUPDR` feeds that range. -/
theorem execAll_crcOfLoadedText {text : List Byte} {n : BitVec 16} {s : State} (hn : text.length = n.toNat)
    (hroom : n.toNat ≤ s.params.bufcap.toNat) (hwf : s.buf.wf = true) :
    ∃ t, execAll (loadFrame text ++ [.crcinit, .crcupdr 0#16 n, .crcfin]) s = .next t ∧
      t.a = crc32 s.params text := by
  obtain ⟨t, hload, hlen, hholds⟩ := execAll_loadFrame (hn ▸ hroom) hwf
  have hrange : t.rangeBytes 0#16 n = text := by
    rw [Memory.HoldsAt, hn] at hholds
    exact hholds
  have hfeeds : Feeds [.crcupdr 0#16 n] { t with crc := t.params.crcInit, err := 0#4 } text :=
    hrange ▸ feeds_crcupdr (Nat.zero_le _) (hlen.trans hn).ge
  obtain ⟨u, hcrc, ha⟩ := execAll_crcStream hfeeds
  exact ⟨u, (execAll_append hload).trans hcrc, execAll_keeps_params hload ▸ ha⟩

/-! ## The rounds of a password (R200 to R202) -/

/-- The order of a reading of `PW_INTERLEAVE`, as places in `d0 d1 d2 s0 s1 s2 s3` (R201). -/
def interleavePlaces : Interleave → List (Fin 7)
  | .block => [0, 1, 2, 3, 4, 5, 6]
  | .alternate => [0, 3, 1, 4, 2, 5, 6]
  | .other order => order.toList

/-- One round feeds its seven bytes in the order of the reading. -/
theorem feeds_roundCommands (reading : Interleave) (password : Nat) (salt : Word) (s : State) :
    Feeds (roundCommands reading password salt) s (roundBytes (interleavePlaces reading) password salt) := by
  cases reading with
  | block => exact (feeds_feedBytes (passwordDigits password) s).append (feeds_crcupdw salt)
  | alternate | other => exact feeds_feedBytes _ s

theorem execAll_encryptPassword (reading : Interleave) (password : Nat) (salt : Word) (s : State) :
    ∃ t, execAll (encryptPassword reading password salt) s = .next t ∧
      t.a = crc32 s.params (List.replicate 10 (roundBytes (interleavePlaces reading) password salt)).flatten :=
  execAll_crcStream (feeds_replicate (feeds_roundCommands reading password salt) 10 _)

theorem passwordDigits_of_digits {h t u : Nat} (hh : h ≤ 9) (ht : t ≤ 9) (hu : u ≤ 9) :
    passwordDigits (100 * h + 10 * t + u) =
      [BitVec.ofNat 8 (0x30 + h), BitVec.ofNat 8 (0x30 + t), BitVec.ofNat 8 (0x30 + u)] := by
  have hhundreds : (100 * h + 10 * t + u) / 100 % 10 = h := by omega
  have htens : (100 * h + 10 * t + u) / 10 % 10 = t := by omega
  have hunits : (100 * h + 10 * t + u) % 10 = u := by omega
  rw [passwordDigits, hhundreds, htens, hunits]

theorem roundBytes_of_digits {password : Nat} {d0 d1 d2 : Byte} (hd : passwordDigits password = [d0, d1, d2])
    (places : List (Fin 7)) (salt : Word) :
    roundBytes places password salt = places.map fun k =>
      (#v[d0, d1, d2, salt.extractLsb' 0 8, salt.extractLsb' 8 8, salt.extractLsb' 16 8,
        salt.extractLsb' 24 8] : Vector Byte 7)[k] := by
  rw [roundBytes, hd]
  exact List.map_congr_left fun k _ => List.getD_eq_getElem _ _ k.isLt

/-- Settles O60: both sequences are a CRC stream, of a range that holds the expanded key and of ten fed rounds. -/
theorem handshakeSequencesComputeTheCrc : Obligations.HandshakeSequencesComputeTheCrc := by
  refine ⟨fun order dir challenge key s hparams hwf => ?_, fun h t u salt s _ hh ht hu => ?_⟩
  · have hlen := length_expandedKey order dir challenge key
    have hroom : (128#16).toNat ≤ s.params.bufcap.toNat := le_trans (by decide) (of_decide_eq_true hparams)
    refine ⟨_, hlen, fun j i r hr => ?_, rfl, execAll_crcOfLoadedText hlen hroom hwf⟩
    have hnibble : challengeNibble order challenge j = r := by
      rw [hr]
      cases order <;> rfl
    constructor <;> rintro rfl
    · rw [getElem?_expandedKey order _ challenge key j i.isLt, hnibble, rotatedKeyByte_startAt]
    · rw [getElem?_expandedKey order _ challenge key j (Nat.mod_lt _ (by decide)), hnibble, rotatedKeyByte_placeAt]
  · rintro _ d0 d1 d2 s0 s1 s2 s3 rfl hd0 hd1 hd2 rfl rfl rfl rfl
    have hd := passwordDigits_of_digits hh ht hu
    rw [← hd0, ← hd1, ← hd2] at hd
    refine ⟨by rw [encryptPassword, roundCommands, roundBlock, hd]; rfl, fun reading round hround => ?_⟩
    have hbytes : roundBytes (interleavePlaces reading) (100 * h + 10 * t + u) salt = round := by
      rw [roundBytes_of_digits hd, hround]
      cases reading <;> rfl
    exact hbytes ▸ execAll_encryptPassword reading _ salt s

end Sys2Proof.Machine
end

section
/-! PROOF. Buffer and table access (46_buffer_table.md): the endings of the five commands. -/

namespace Sys2Proof.Machine

/-! ## The operand checks as inequalities -/

theorem high_half_ne_zero_iff {imm : BitVec 32} : imm.extractLsb' 16 16 ≠ 0#16 ↔ 2 ^ 16 ≤ imm.toNat := by
  rw [ne_eq, ← BitVec.toNat_inj, BitVec.extractLsb'_toNat, Nat.shiftRight_eq_div_pow, BitVec.toNat_ofNat]
  omega

/-- An operand that fits in `n` bits is its low `n` bits, zero-extended. -/
theorem setWidth_ofNat_of_lt {n : Nat} {imm : BitVec 32} (h : imm.toNat < 2 ^ n) :
    (BitVec.ofNat n imm.toNat).setWidth 32 = imm := by
  apply BitVec.eq_of_toNat_eq
  rw [BitVec.toNat_setWidth, BitVec.toNat_ofNat, Nat.mod_eq_of_lt h, Nat.mod_eq_of_lt imm.isLt]

/-! ## The endings of the commands -/

/-- Settles O25: the legal case is the move to the low half of the operand, which is the whole operand. -/
theorem setposResult : Obligations.SetposResult := by
  refine fun x4 imm s => ⟨rfl, fun hbad => ?_, fun hx hfit habove => ?_, fun hx hle => ?_⟩
  · rw [exec, execSetpos, if_pos (hbad.imp_right high_half_ne_zero_iff.2)]
    rfl
  · have hlegal : ¬ (x4 ≠ 0#4 ∨ imm.extractLsb' 16 16 ≠ 0#16) := by
      rw [high_half_ne_zero_iff, not_or, not_not]
      exact ⟨hx, Nat.not_le_of_lt hfit⟩
    have hlow : s.len < imm.extractLsb' 0 16 := by
      rw [BitVec.lt_def, BitVec.extractLsb'_toNat, Nat.shiftRight_zero, Nat.mod_eq_of_lt hfit]
      exact habove
    rw [exec, execSetpos, if_neg hlegal, if_pos hlow]
    rfl
  · have hfit : imm.toNat < 2 ^ 16 := hle.trans_lt s.len.isLt
    have hpos : (BitVec.ofNat 16 imm.toNat).toNat ≤ s.len.toNat := (Nat.mod_le _ _).trans hle
    rw [hx, ← exec_setpos_of_le hpos, setWidth_ofNat_of_lt hfit]

/-- Settles O26: an operand below 256 is a byte zero-extended, which is stored when there is room. -/
theorem putbResult : Obligations.PutbResult := by
  refine fun x4 imm s => ⟨rfl, fun hbad => ?_, fun hx hfit hfull => ?_, fun hx hfit hroom hwf => ?_⟩
  · have hillegal : byteOperand x4 imm = false :=
      Bool.eq_false_iff.2 <| byteOperand_iff.not.2 fun ⟨hx, hlt⟩ => hbad.elim (absurd hx) (Nat.not_le_of_lt hlt)
    rw [exec, execPutb, hillegal]
    rfl
  · have hnoRoom : s.roomFor 1 = false :=
      Bool.eq_false_iff.2 fun h => Nat.not_lt_of_le hfull (State.roomFor_iff.1 h)
    rw [exec, execPutb, byteOperand_iff.2 ⟨hx, hfit⟩, hnoRoom]
    rfl
  · obtain ⟨t, hex, ht, -⟩ := exec_putb_stored (BitVec.ofNat 8 imm.toNat) hroom hwf
    rw [setWidth_ofNat_of_lt hfit] at hex
    exact ⟨t, hx ▸ hex, ht⟩

/-- Settles O24: an entry of the table after `TABW` is the one written at its index, or the entry before. -/
theorem clrbAndTabwResults : Obligations.ClrbAndTabwResults := by
  refine ⟨rfl, fun s => rfl, fun rc idx addr v s => ⟨rfl, _, rfl, rfl, fun e => ?_⟩⟩
  by_cases h : e.val = idx.toNat
  · rw [if_pos h]
    simp [h]
  · rw [if_neg h]
    exact Vector.getElem_set_ne idx.isLt e.isLt (Ne.symm h)

/-- Settles O27. -/
theorem getbResult : Obligations.GetbResult := by
  refine ⟨rfl, fun s => ⟨fun hend => ?_, fun hvalid => ?_⟩⟩
  · have hshort : s.holds 1 = false :=
      Bool.eq_false_iff.2 fun h => Nat.not_lt_of_le hend (State.holds_iff.1 h)
    rw [exec, execGetb, hshort]
    rfl
  · have hholds : s.holds 1 = true := State.holds_iff.2 hvalid
    rw [exec, execGetb, hholds, BitVec.ofNat_toNat, BitVec.ofNat_add, BitVec.ofNat_toNat, BitVec.setWidth_eq]
    rfl

end Sys2Proof.Machine
end

section
/-! PROOF. System commands (47_system.md): the endings of `NOP` and `TOUCH`, and the counter over many `TOUCH`. -/

namespace Sys2Proof.Machine

/-- Incrementing a 6-bit number is counting modulo 64 (R222). -/
theorem seq_add_one (q : BitVec 6) : q + 1#6 = BitVec.ofNat 6 ((q.toNat + 1) % 64) :=
  BitVec.eq_of_toNat_eq (by simp [BitVec.toNat_add])

theorem exec_touch (s : State) : exec .touch s =
    .next { s with a := s.seq.setWidth 32, seq := BitVec.ofNat 6 ((s.seq.toNat + 1) % 64), err := 0#4 } :=
  seq_add_one s.seq ▸ rfl

/-- Settles O21. -/
theorem nopAndTouchResults : Obligations.NopAndTouchResults :=
  ⟨rfl, rfl, fun s => ⟨rfl, exec_touch s⟩⟩

/-- Settles O22, by induction on the number of `TOUCH`: the first one moves `SEQ` on by one and the others count from
there. -/
theorem touchCountsModulo64 : Obligations.TouchCountsModulo64 := by
  intro n
  induction n with
  | zero =>
    intro s
    have ha : s.seq.setWidth 32 = BitVec.ofNat 32 ((s.seq.toNat + 0) % 64) := by
      rw [Nat.add_zero, Nat.mod_eq_of_lt s.seq.isLt, BitVec.ofNat_toNat]
    exact (execAll_cons (exec_touch s)).trans (ha ▸ rfl)
  | succ n ih =>
    intro s
    have hseq : (BitVec.ofNat 6 ((s.seq.toNat + 1) % 64)).toNat = (s.seq.toNat + 1) % 64 := by
      rw [BitVec.toNat_ofNat, Nat.mod_mod]
    have hcount (k : Nat) : ((s.seq.toNat + 1) % 64 + k) % 64 = (s.seq.toNat + (k + 1)) % 64 := by omega
    rw [List.replicate_succ, execAll_cons (exec_touch s), ih]
    simp only [hseq, Nat.add_assoc, hcount]

end Sys2Proof.Machine
end

section
/-! PROOF. Exceptions (60_exceptions.md): the endings of a command and the codes it can leave, and the outcome of a parse,
check by check. -/

namespace Sys2Proof.Machine

/-! ## The commands that R230 lists for a code -/

/-- The commands that can leave a failure code (R230). -/
def Failure.commands : Failure → List String
  | .cksum => ["CKVFY", "PARSERD", "PARSEWR"]
  | .crc => ["CRCVFY"]
  | .short | .format | .op | .width | .trunc | .excess => ["PARSERD", "PARSEWR"]

/-- The commands that can leave a fault code (R230); the code of an illegal word is left by no decoded command. -/
def Misuse.commands : Misuse → List String
  | .illegal => []
  | .operand => ["SETPOS", "PUTB", "ENC6", "ENC8", "ENC12", "ENC16", "CKAPP", "CRCUPDB", "CRCUPDW", "CRCVFY", "ASMRD",
      "ASMWR"]
  | .range => ["SETPOS", "PUTB", "GETB", "ENC6", "ENC8", "ENC12", "ENC16", "ENC32", "DEC6", "DEC8", "DEC12", "DEC16",
      "DEC32", "CKSUM", "CKAPP", "CKVFY", "CRCUPDR", "ASMRD", "ASMWR"]

/-- The commands that can only succeed, whatever the state (R232). -/
def succeedingCommands : List String := ["NOP", "RESET", "TOUCH", "CLRB", "TABW", "CRCINIT", "CRCFIN"]

theorem Failure.commands_not_succeeding (e : Failure) {m : String} (h : m ∈ e.commands) : m ∉ succeedingCommands := by
  revert m
  cases e <;> simp [Failure.commands, succeedingCommands]

theorem Misuse.commands_not_succeeding (e : Misuse) {m : String} (h : m ∈ e.commands) : m ∉ succeedingCommands := by
  revert m
  cases e <;> simp [Misuse.commands, succeedingCommands]

theorem Failure.code_injective : Function.Injective Failure.code := by
  intro e e'
  cases e <;> cases e' <;> decide

theorem Misuse.code_injective : Function.Injective Misuse.code := by
  intro e e'
  cases e <;> cases e' <;> decide

theorem Failure.code_ne_zero (e : Failure) : e.code ≠ 0#4 := by
  cases e <;> decide

theorem Misuse.code_ne_zero (e : Misuse) : e.code ≠ 0#4 := by
  cases e <;> decide

theorem Failure.code_ne_misuse (e : Failure) (e' : Misuse) : e.code ≠ e'.code := fun h =>
  e.code_not_fault (h ▸ e'.code_bounds.1)

/-! ## Which command raises which fault

`Effect.raise` does not say it. The terms below follow the branches of each command's meaning. -/

/-- A fault code in the outcome `o` is one that R230 lists for the command `i`. -/
def FaultsAsListed (i : Instr) (o : Host.Outcome State Fault Refusal) : Prop :=
  ∀ (t : State) (e : Misuse), o = .next t → t.err = e.code → i.mnemonic ∈ e.commands

namespace FaultsAsListed

variable {i : Instr}

theorem raise (s : State) {e : Misuse} (h : i.mnemonic ∈ e.commands := by simp [Instr.mnemonic, Misuse.commands]) :
    FaultsAsListed i (.next (s.raise e)) := by
  rintro _ e' ⟨⟩ hcode
  exact Misuse.code_injective hcode ▸ h

theorem done {t : State} (h : t.err = 0#4) : FaultsAsListed i (.next t) := by
  rintro _ e ⟨⟩ hcode
  exact absurd (hcode.symm.trans h) e.code_ne_zero

theorem fail (s : State) (e : Failure) : FaultsAsListed i (.next (s.fail e)) := by
  rintro _ e' ⟨⟩ hcode
  exact absurd hcode (e.code_ne_misuse e')

theorem ite {c : Prop} [Decidable c] {o o' : Host.Outcome State Fault Refusal} (h : FaultsAsListed i o)
    (h' : FaultsAsListed i o') : FaultsAsListed i (if c then o else o') := by
  split
  · exact h
  · exact h'

end FaultsAsListed

/-- `ENC32` has no illegal operand, the other encodes do. -/
theorem faultsAsListed_encCommand (c : CodecWidth) (x4 : BitVec 4) (imm : BitVec 32) (s : State) :
    FaultsAsListed (encCommand c x4 imm) (exec (encCommand c x4 imm) s) := by
  rw [exec_encCommand]
  obtain ⟨hbad, h⟩ | ⟨-, -, h⟩ | ⟨-, -, h⟩ := encodeStep_cases c x4 imm s
  · rw [h]
    cases c with
    | w32 => exact absurd ⟨imm.isLt, x4.isLt⟩ hbad
    | _ => exact .raise s (by simp [encCommand, Instr.mnemonic, Misuse.commands])
  · rw [h]
    exact .raise s (by cases c <;> simp [encCommand, Instr.mnemonic, Misuse.commands])
  · rw [h]
    exact .done rfl

theorem faultsAsListed_decCommand (c : CodecWidth) (s : State) :
    FaultsAsListed (decCommand c) (exec (decCommand c) s) := by
  rw [exec_decCommand]
  obtain ⟨-, h⟩ | ⟨-, h⟩ := decodeStep_cases c s
  · rw [h]
    exact .raise s (by cases c <;> simp [decCommand, Instr.mnemonic, Misuse.commands])
  · rw [h]
    exact .done rfl

theorem faultsAsListed_assembleCommand (op : FrameOp) (wf : BitVec 2) (seq count : Six) (s : State) :
    FaultsAsListed (assembleCommand op wf seq count) (exec (assembleCommand op wf seq count) s) := by
  rw [exec_assembleCommand]
  obtain h | h | ⟨w, -, -, h⟩ := assemble_cases op wf seq count s
  · rw [h]
    exact .raise s (by cases op <;> simp [assembleCommand, Instr.mnemonic, Misuse.commands])
  · rw [h]
    exact .raise s (by cases op <;> simp [assembleCommand, Instr.mnemonic, Misuse.commands])
  · rw [h]
    exact .done rfl

theorem faultsAsListed_parseCommand (op : FrameOp) (s : State) :
    FaultsAsListed (parseCommand op) (exec (parseCommand op) s) := by
  rw [exec_parseCommand]
  obtain ⟨e, -, h⟩ | ⟨hd, -, h⟩ := parse_cases op s
  · rw [h]
    exact .fail s e
  · rw [h]
    exact .done rfl

/-- Every command raises only the faults that R230 lists for it. -/
theorem exec_faultsAsListed (i : Instr) (s : State) : FaultsAsListed i (exec i s) := by
  cases i with
  | nop | reset | touch | clrb | tabw | crcinit | crcfin => exact .done rfl
  | setpos | putb | ckapp => exact .ite (.raise s) (.ite (.raise s) (.done rfl))
  | getb | cksum | crcupdr | crcupdb | crcupdw => exact .ite (.raise s) (.done rfl)
  | ckvfy | crcvfy => exact .ite (.raise s) (.ite (.fail _ _) (.done rfl))
  | enc6 x4 imm => exact faultsAsListed_encCommand .w6 x4 imm s
  | enc8 x4 imm => exact faultsAsListed_encCommand .w8 x4 imm s
  | enc12 x4 imm => exact faultsAsListed_encCommand .w12 x4 imm s
  | enc16 x4 imm => exact faultsAsListed_encCommand .w16 x4 imm s
  | enc32 x4 imm => exact faultsAsListed_encCommand .w32 x4 imm s
  | dec6 => exact faultsAsListed_decCommand .w6 s
  | dec8 => exact faultsAsListed_decCommand .w8 s
  | dec12 => exact faultsAsListed_decCommand .w12 s
  | dec16 => exact faultsAsListed_decCommand .w16 s
  | dec32 => exact faultsAsListed_decCommand .w32 s
  | asmrd w seq count => exact faultsAsListed_assembleCommand .read w seq count s
  | asmwr w seq count => exact faultsAsListed_assembleCommand .write w seq count s
  | parserd => exact faultsAsListed_parseCommand .read s
  | parsewr => exact faultsAsListed_parseCommand .write s

/-! ## The three endings of a command (R234 to R236) -/

/-- How the command `i` can end in the state `s`: with code 0, with a failure, or with a fault; a failure or fault of a code
that R230 lists for the command. A failure writes `CK` beside its code only when the command is `CKVFY`. -/
inductive Ending (i : Instr) (s : State) : State → Prop
  | done {t : State} (code : t.err = 0#4) : Ending i s t
  | fail (e : Failure) (ck : Six) (listed : i.mnemonic ∈ e.commands) (kept : i.mnemonic ≠ "CKVFY" → ck = s.ck) :
      Ending i s (({ s with ck := ck } : State).fail e)
  | raise (e : Misuse) (listed : i.mnemonic ∈ e.commands) : Ending i s (s.raise e)

theorem ending_of_exec {i : Instr} {s t : State} (h : exec i s = .next t) : Ending i s t := by
  obtain ⟨u, hu, rfl⟩ := effect_of_exec h
  cases hu with
  | raise e => exact .raise e (exec_faultsAsListed i s _ e h rfl)
  | ckvfyFails lo hi =>
    exact .fail .cksum _ (by simp [Instr.mnemonic, Failure.commands]) fun hne => absurd rfl hne
  | crcvfyFails x4 imm => exact .fail .crc s.ck (by simp [Instr.mnemonic, Failure.commands]) fun _ => rfl
  | @parseFails op e hrefused =>
    refine .fail e s.ck ?_ fun _ => rfl
    cases e with
    | crc => exact absurd hrefused (parseChecks_ne_crc op s.buf s.len.toNat)
    | _ => cases op <;> simp [parseCommand, Instr.mnemonic, Failure.commands]
  | _ => exact .done rfl

namespace Ending

variable {i : Instr} {s t : State}

theorem code_produced (h : Ending i s t) : producedCode t.err := by
  cases h with
  | done hcode => exact .inl (by simp [hcode])
  | fail e => exact .inl e.code_bounds.2
  | raise e => exact .inr e.code_bounds

theorem listed_of_failure (h : Ending i s t) {e : Failure} (he : t.err = e.code) : i.mnemonic ∈ e.commands := by
  cases h with
  | done hcode => exact absurd (he.symm.trans hcode) e.code_ne_zero
  | fail e' _ hlisted => exact Failure.code_injective he ▸ hlisted
  | raise e' => exact absurd he.symm (e.code_ne_misuse e')

theorem listed_of_misuse (h : Ending i s t) {e : Misuse} (he : t.err = e.code) : i.mnemonic ∈ e.commands := by
  cases h with
  | done hcode => exact absurd (he.symm.trans hcode) e.code_ne_zero
  | fail e' => exact absurd he (e'.code_ne_misuse e)
  | raise e' hlisted => exact Misuse.code_injective he ▸ hlisted

theorem err_of_succeeding (h : Ending i s t) (hi : i.mnemonic ∈ succeedingCommands) : t.err = 0#4 := by
  cases h with
  | done hcode => exact hcode
  | fail e _ hlisted => exact absurd hi (e.commands_not_succeeding hlisted)
  | raise e hlisted => exact absurd hi (e.commands_not_succeeding hlisted)

end Ending

/-- The failures that only a parse has. -/
def parseOnlyFailures : List Failure := [.short, .format, .op, .width, .trunc, .excess]

theorem commands_of_mem_parseOnlyFailures {e : Failure} (h : e ∈ parseOnlyFailures) :
    e.commands = ["PARSERD", "PARSEWR"] := by
  revert e
  decide

/-- Settles O18: each code belongs to one failure or misuse, whose listed commands are the statement's. -/
theorem outcomeCodesOfEachCommand : Obligations.OutcomeCodesOfEachCommand := by
  intro i s t h
  have hend := ending_of_exec h
  refine ⟨hend.code_produced, fun hcode => ?_, hend.listed_of_failure (e := .cksum), fun hcode => ?_, fun hcode => ?_,
    hend.listed_of_misuse (e := .operand), hend.listed_of_misuse (e := .range), hend.err_of_succeeding⟩
  · exact absurd (hend.listed_of_misuse (e := .illegal) hcode) List.not_mem_nil
  · have hcode' : t.err ∈ parseOnlyFailures.map Failure.code := hcode
    obtain ⟨e, he, heq⟩ := List.mem_map.1 hcode'
    exact commands_of_mem_parseOnlyFailures he ▸ hend.listed_of_failure heq.symm
  · exact List.mem_singleton.1 (hend.listed_of_failure (e := .crc) hcode)

/-- Settles O19: the code says which of the three endings it was. -/
theorem failuresAndFaultsChangeOnlyStatus : Obligations.FailuresAndFaultsChangeOnlyStatus := by
  intro i s t h
  cases ending_of_exec h with
  | done hcode => simp [hcode]
  | fail e ck _ hkept => exact ⟨fun _ => ⟨rfl, hkept⟩, fun hfault => absurd hfault.1 e.code_not_fault⟩
  | raise e =>
    have hbounds := e.code_bounds
    refine ⟨fun hfailure => ?_, fun _ => rfl⟩
    rw [State.raise_err] at hfailure
    omega

/-! ## The outcome of a parse (R241; 43_frame.md R160) -/

/-- The code a parse leaves after its checks. -/
def checksCode : Except Failure ResponseHeader → BitVec 4
  | .ok _ => 0#4
  | .error e => e.code

theorem parse_err (op : FrameOp) (s : State) : (parse op s).err = checksCode (parseChecks op s.buf s.len.toNat) := by
  obtain ⟨e, hchecks, h⟩ | ⟨hd, hchecks, h⟩ := parse_cases op s
  · rw [h, hchecks]
    rfl
  · rw [h, hchecks]
    rfl

/-- A parse that does not end with code 0 changes the code only (R235, "fail-closed"). -/
theorem parse_of_err_ne_zero {op : FrameOp} {s : State} (h : (parse op s).err ≠ 0#4) :
    parse op s = { s with err := (parse op s).err } := by
  obtain ⟨e, -, hparse⟩ | ⟨hd, -, hparse⟩ := parse_cases op s
  · rw [hparse]
    rfl
  · exact absurd (by rw [hparse]) h

/-- One check in front of the others. -/
theorem checksCode_ite {c c' : Prop} [Decidable c] [Decidable c'] {e : Failure} {rest : Except Failure ResponseHeader}
    {code : BitVec 4} (hc : c ↔ c') (hrest : ¬ c' → checksCode rest = code) :
    checksCode (if c then .error e else rest) = if c' then e.code else code := by
  rw [apply_ite checksCode]
  exact ite_congr (propext hc) (fun _ => rfl) hrest

theorem FrameWidth.ofChar_eq_none_iff {b : Byte} :
    FrameWidth.ofChar b = none ↔ b ≠ 0x31#8 ∧ b ≠ 0x32#8 ∧ b ≠ 0x34#8 := by
  unfold FrameWidth.ofChar
  split_ifs <;> simp [*]

/-- The symbols of a value group by the width character, as numbers (43_frame.md R150). -/
theorem FrameWidth.nsym_of_ofChar {b : Byte} {w : FrameWidth} (h : FrameWidth.ofChar b = some w) :
    w.codec.nsym = if b = 0x31#8 then 2 else if b = 0x32#8 then 3 else 6 := by
  rw [FrameWidth.char_of_ofChar h]
  cases w <;> rfl

/-- The sum that a parse compares runs from the sequence number to before the last byte (42_checksum.md R144). -/
theorem cksum_response {n : Nat} (hn : ¬ n < 7) (m : Memory) :
    cksum (m.readBytes 4 (n - 5)) = BitVec.ofNat 6 (∑ j ∈ Finset.Ico 4 (n - 1), (m.read j).toNat) := by
  rw [cksum, sum_readBytes, show 4 + (n - 5) = n - 1 by omega]

/-- Settles O50: the code of the checks, one check of R160 after the other. -/
theorem parseOutcomesInOrder : Obligations.ParseOutcomesInOrder := by
  rintro op s n k need rfl hk hneed
  refine ⟨_, exec_parseCommand op s, parse_of_err_ne_zero, (parse_err op s).trans ?_⟩
  refine checksCode_ite .rfl fun hlong => checksCode_ite (e := .cksum) ?_ fun _ =>
    checksCode_ite (e := .format) .rfl fun _ => checksCode_ite (e := .op) .rfl fun _ => ?_
  · rw [cksum_response hlong]
    exact ne_comm
  · cases hw : FrameWidth.ofChar (s.buf.read 2) with
    | none => exact (if_pos (FrameWidth.ofChar_eq_none_iff.1 hw)).symm
    | some w =>
      have hwidth := FrameWidth.ofChar_eq_none_iff.not.1 (hw ▸ Option.some_ne_none w)
      rw [if_neg hwidth, hneed, hk, ← FrameWidth.nsym_of_ofChar hw]
      exact checksCode_ite (e := .trunc) .rfl fun _ => checksCode_ite (e := .excess) .rfl fun _ => rfl

end Sys2Proof.Machine
end
